-- ==== Sys2Proof/Word.lean ====
section
/-! DEFINITION. The value types of the machine: bytes, 32-bit words, cache indices, colours, the two engines. -/

namespace Sys2Proof

/-- `u8` (00_scope R10). -/
abbrev Byte := BitVec 8

/-- `u32` (00_scope R10). -/
abbrev Word32 := BitVec 32

/-- `u6`, the index of a cache slot (00_scope R10, 41_color_cache R130). -/
abbrev CacheIndex := BitVec 6

/-- A colour: four `u8` channels (00_scope R11). Lane packing is not observable (93 U16), so it is a record. -/
structure Color where
  r : Byte
  g : Byte
  b : Byte
  a : Byte
  deriving DecidableEq, Repr, Inhabited

/-- The two engines (00_scope R6). -/
inductive Engine where
  /-- ENC, the encoder engine. -/
  | enc
  /-- DEC, the decoder engine. -/
  | dec
  deriving DecidableEq, Repr

end Sys2Proof
end

