-- ==== Sys2Proof/Config.lean ====
section
/-! DEFINITION. The parameter of the hardware (00_scope R5), its fixed parameters (R4), and the free values. -/

namespace Sys2Proof

/-- The one open parameter, `MAX_PIXELS` (00_scope R5, 92 D6). It is plain data held in State, which no step changes, so
that a statement about every state is a statement about every `MAX_PIXELS` (log 2). -/
structure Config where
  maxPixels : Nat
  deriving DecidableEq, Repr

/-- `1 <= MAX_PIXELS <= 2^64 - 1` (00_scope R5). -/
abbrev Config.Legal (c : Config) : Prop := 1 ≤ c.maxPixels ∧ c.maxPixels ≤ 2 ^ 64 - 1

/-- CACHE_ENTRIES (00_scope R4). -/
abbrev cacheEntries : Nat := 64

/-- RUN_MAX (00_scope R4). -/
abbrev runMax : Nat := 62

/-- HEADER_BYTES (00_scope R4). -/
abbrev headerBytes : Nat := 14

/-- END_MARKER_BYTES (00_scope R4). -/
abbrev endMarkerBytes : Nat := 8

/-- INIT_PREV (00_scope R4, 10_state R38). -/
def initPrev : Color := ⟨0, 0, 0, 255⟩

/-- INIT_CACHE_ENTRY (00_scope R4, 10_state R38). -/
def initCacheEntry : Color := ⟨0, 0, 0, 0⟩

/-! The free values (log 5): what a register holds where the spec calls its content unspecified (10_state R37, R38).
Each is applied to the engine and to that engine's counter of free values; none has a body, so nothing can be proved of
a value. -/

/-- Content of `prev` after the `reset` token (10_state R37). -/
opaque Config.freePrev : Engine → Nat → Color
/-- Content of a cache slot after the `reset` token (10_state R37). -/
opaque Config.freeSlot : Engine → Nat → Nat → Color
/-- Content of `e_run` after the `reset` token (10_state R37). -/
opaque Config.freeRun : Nat → BitVec 6
/-- Content of `width` after the `reset` token and after `dec_start` (10_state R37, R38). -/
opaque Config.freeWidth : Engine → Nat → Word32
/-- Content of `height` after the `reset` token and after `dec_start` (10_state R37, R38). -/
opaque Config.freeHeight : Engine → Nat → Word32
/-- Content of `channels` after the `reset` token and after `dec_start` (10_state R37, R38). -/
opaque Config.freeChannels : Engine → Nat → Byte
/-- Content of `colorspace` after the `reset` token and after `dec_start` (10_state R37, R38). -/
opaque Config.freeColorspace : Engine → Nat → Byte
/-- Content of `target` after the `reset` token and after `dec_start` (10_state R37, R38). -/
opaque Config.freeTarget : Engine → Nat → Nat
/-- Content of `count` after the `reset` token (10_state R37). -/
opaque Config.freeCount : Engine → Nat → Nat
/-- Content of `e_opos` or `d_ipos` after the `reset` token (10_state R37). -/
opaque Config.freePosition : Engine → Nat → Nat
/-- Field `code` of the fault record after the `reset` token and after a start step (10_state R37, R38). -/
opaque Config.freeFaultCode : Engine → Nat → BitVec 3
/-- Field `at` of the fault record after the `reset` token and after a start step (10_state R37, R38). -/
opaque Config.freeFaultOffset : Engine → Nat → Nat
/-- Field `pixels` of the fault record after the `reset` token and after a start step (10_state R37, R38). -/
opaque Config.freeFaultPixels : Engine → Nat → Nat

end Sys2Proof
end

