-- ==== Sys2Proof/Syntax.lean ====
section
/-! DEFINITION. The instructions: the six chunks and the two records of the stream, one constructor per row of
spec/opcode_table.json, in the table's order. -/

namespace Sys2Proof

/-- One item of the byte stream. Operands are the unbiased values of 30_encoding R112; 30_encoding R113 names the two
records. -/
inductive Instr where
  /-- `RGBA(r,g,b,a)` (30_encoding R97). -/
  | rgba (r g b a : Byte)
  /-- `RGB(r,g,b)` (30_encoding R96). -/
  | rgb (r g b : Byte)
  /-- `RUN(n)`, `n` in 1..62 (30_encoding R95). -/
  | run (n : Nat)
  /-- `LUMA(ddr,dg,ddb)`: red minus green, green, blue minus green (30_encoding R94, R112). -/
  | luma (ddr dg ddb : Int)
  /-- `DIFF(dr,dg,db)` (30_encoding R93). -/
  | diff (dr dg db : Int)
  /-- `INDEX(i)` (30_encoding R92). -/
  | index (i : CacheIndex)
  /-- `HEADER(w,h,ch,cs)`, the 14-byte record (30_encoding R113, 44_header_codec R200). -/
  | header (w h : Word32) (ch cs : Byte)
  /-- `END`, the 8-byte record (30_encoding R113, 44_header_codec R203). -/
  | endMarker
  deriving DecidableEq, Repr

/-- Where in the stream an item stands: the header first, then chunks, then the end marker (20_memory R67). The bytes
alone do not tell (30_encoding R104, R105): DEC's phase does. -/
inductive Region where
  | header
  | chunks
  | trailer
  deriving DecidableEq, Repr

/-- The region of the stream an item belongs to (20_memory R67). -/
def Instr.region : Instr → Region
  | .rgba _ _ _ _ => .chunks
  | .rgb _ _ _ => .chunks
  | .run _ => .chunks
  | .luma _ _ _ => .chunks
  | .diff _ _ _ => .chunks
  | .index _ => .chunks
  | .header _ _ _ _ => .header
  | .endMarker => .trailer

/-- The length of an item in bytes (30_encoding R90, R99; 00_scope R4). -/
def Instr.length : Instr → Nat
  | .rgba _ _ _ _ => 5
  | .rgb _ _ _ => 4
  | .run _ => 1
  | .luma _ _ _ => 2
  | .diff _ _ _ => 1
  | .index _ => 1
  | .header _ _ _ _ => 14
  | .endMarker => 8

/-- The number of pixels an item yields (30_encoding R99; the records yield none). -/
def Instr.pixels : Instr → Nat
  | .rgba _ _ _ _ => 1
  | .rgb _ _ _ => 1
  | .run n => n
  | .luma _ _ _ => 1
  | .diff _ _ _ => 1
  | .index _ => 1
  | .header _ _ _ _ => 0
  | .endMarker => 0

end Sys2Proof
end

