-- ==== Sys2Proof/WellFormed.lean ====
section
/-! DEFINITION. Which instructions are well formed: every operand in the range 30_encoding R100 gives it. -/

namespace Sys2Proof

/-- The value ranges of 30_encoding R100; a header's channel count is 3 or 4 (44_header_codec R200). The operands that
are whole bytes, words or 6-bit indices have their range in their type. -/
abbrev Instr.WellFormed : Instr → Prop
  | .rgba _ _ _ _ => True
  | .rgb _ _ _ => True
  | .run n => 1 ≤ n ∧ n ≤ runMax
  | .luma ddr dg ddb => (-8 ≤ ddr ∧ ddr ≤ 7) ∧ (-32 ≤ dg ∧ dg ≤ 31) ∧ (-8 ≤ ddb ∧ ddb ≤ 7)
  | .diff dr dg db => (-2 ≤ dr ∧ dr ≤ 1) ∧ (-2 ≤ dg ∧ dg ≤ 1) ∧ (-2 ≤ db ∧ db ≤ 1)
  | .index _ => True
  | .header _ _ ch _ => ch = 3 ∨ ch = 4
  | .endMarker => True

end Sys2Proof
end

