-- ==== Sys2Proof/Decode.lean ====
section
/-! DEFINITION. From bytes to instructions and back: byte order, bit fields, the decoder, the encoder, and the host's
table words. -/

namespace Sys2Proof

/-! ### Byte primitives (40_byte_primitives) -/

/-- `BE32` (40_byte_primitives R120): most significant byte first. -/
def be32 (v : Word32) : List Byte :=
  [v.extractLsb' 24 8, v.extractLsb' 16 8, v.extractLsb' 8 8, v.extractLsb' 0 8]

/-- `U32` (40_byte_primitives R121). -/
def u32 (b0 b1 b2 b3 : Byte) : Word32 := b0 ++ b1 ++ b2 ++ b3

/-- The unsigned value of the `len` bits of a byte from bit `lo` up (00_scope R10). -/
def field (b : Byte) (lo len : Nat) : Nat := (b.extractLsb' lo len).toNat

/-- A biased field read back: zero-extend, subtract the bias in integers (30_encoding R100). -/
def unbias (stored : Nat) (bias : Int) : Int := (stored : Int) - bias

/-- A value as a biased field: `value + bias` (30_encoding R100). -/
def biased (v bias : Int) : Byte := BitVec.ofInt 8 (v + bias)

/-! ### Constants of the records (44_header_codec) -/

/-- MAGIC (00_scope R4, 44_header_codec R200). -/
def magic : List Byte := [0x71, 0x6F, 0x69, 0x66]

/-- END_MARKER (00_scope R4, 44_header_codec R203). -/
def endMarkerList : List Byte := [0, 0, 0, 0, 0, 0, 0, 1]

/-! ### Chunks (30_encoding) -/

/-- The six chunk types (30_encoding R90). -/
inductive ChunkKind where
  | rgba
  | rgb
  | run
  | luma
  | diff
  | index
  deriving DecidableEq, Repr

/-- The type of a chunk from its opcode byte, first match wins (30_encoding R98). -/
def chunkKind (b : Byte) : ChunkKind :=
  if b = 0xFF#8 then .rgba
  else if b = 0xFE#8 then .rgb
  else if 0xC0#8 ≤ b then .run
  else if 0x80#8 ≤ b then .luma
  else if 0x40#8 ≤ b then .diff
  else .index

/-- The length of a chunk from its type (30_encoding R99). -/
def kindLength : ChunkKind → Nat
  | .rgba => 5
  | .rgb => 4
  | .run => 1
  | .luma => 2
  | .diff => 1
  | .index => 1

/-- The length of a chunk from its opcode byte (30_encoding R90, R99). -/
def chunkLength (b : Byte) : Nat := kindLength (chunkKind b)

/-- Why bytes are no instruction. -/
inductive DecodeError where
  /-- Fewer bytes than the item needs (42_chunk_decoder R152). -/
  | truncated
  /-- The first four bytes of a header are not the magic (44_header_codec R202). -/
  | badMagic
  /-- `decodeHeader` alone: the channel byte is not 3 or 4 (44_header_codec R202). -/
  | badChannels
  /-- The eight bytes of the trailer are not the end marker (44_header_codec R203). -/
  | notEndMarker
  deriving DecidableEq, Repr

/-- The chunk decoder: the type by R98, then the operands by 30_encoding R92 to R97 and R100. -/
def decodeChunk : List Byte → Except DecodeError (Instr × List Byte)
  | [] => .error .truncated
  | op :: rest =>
    match chunkKind op with
    | .rgba =>
      match rest with
      | r :: g :: b :: a :: rest' => .ok (.rgba r g b a, rest')
      | _ => .error .truncated
    | .rgb =>
      match rest with
      | r :: g :: b :: rest' => .ok (.rgb r g b, rest')
      | _ => .error .truncated
    | .run => .ok (.run (field op 0 6 + 1), rest)
    | .luma =>
      match rest with
      | d :: rest' =>
        .ok (.luma (unbias (field d 4 4) 8) (unbias (field op 0 6) 32) (unbias (field d 0 4) 8), rest')
      | _ => .error .truncated
    | .diff => .ok (.diff (unbias (field op 4 2) 2) (unbias (field op 2 2) 2) (unbias (field op 0 2) 2), rest)
    | .index => .ok (.index (op.extractLsb' 0 6), rest)

/-! ### Records (44_header_codec) -/

/-- The fields of a header record whose magic is right; the channel byte is not judged here (the header step judges it,
42_chunk_decoder R141). -/
def decodeHeaderRecord : List Byte → Except DecodeError (Instr × List Byte)
  | m0 :: m1 :: m2 :: m3 :: w0 :: w1 :: w2 :: w3 :: h0 :: h1 :: h2 :: h3 :: ch :: cs :: rest =>
    if [m0, m1, m2, m3] = magic then .ok (.header (u32 w0 w1 w2 w3) (u32 h0 h1 h2 h3) ch cs, rest)
    else .error .badMagic
  | _ => .error .truncated

/-- The end marker record. No engine decodes it (42_chunk_decoder R157); a host that checks it may (60_exceptions R226). -/
def decodeTrailer (bs : List Byte) : Except DecodeError (Instr × List Byte) :=
  if bs.length < endMarkerBytes then .error .truncated
  else if bs.take endMarkerBytes = endMarkerList then .ok (.endMarker, bs.drop endMarkerBytes)
  else .error .notEndMarker

/-- The decoder: total, and refusing by name. The region says which of the three layouts of 20_memory R67 applies. -/
def decode : Region → List Byte → Except DecodeError (Instr × List Byte)
  | .header, bs => decodeHeaderRecord bs
  | .chunks, bs => decodeChunk bs
  | .trailer, bs => decodeTrailer bs

/-- `encodeHeader` (44_header_codec R201). -/
def encodeHeader (w h : Word32) (ch cs : Byte) : List Byte := magic ++ be32 w ++ be32 h ++ [ch] ++ [cs]

/-- `decodeHeader` (44_header_codec R202): the magic first, the channel count second. -/
def decodeHeader (bs : List Byte) : Except DecodeError (Word32 × Word32 × Byte × Byte) :=
  match decodeHeaderRecord bs with
  | .ok (.header w h ch cs, _) => if ch = 3 ∨ ch = 4 then .ok (w, h, ch, cs) else .error .badChannels
  | .ok _ => .error .badMagic
  | .error e => .error e

/-! ### The encoder (30_encoding R112, R113) -/

/-- The bytes of an instruction, from the encoding table of 30_encoding R112 and R113. -/
def encode : Instr → List Byte
  | .rgba r g b a => [0xFF, r, g, b, a]
  | .rgb r g b => [0xFE, r, g, b]
  | .run n => [0xC0#8 ||| BitVec.ofNat 8 (n - 1)]
  | .luma ddr dg ddb => [0x80#8 ||| biased dg 32, (biased ddr 8 <<< 4) ||| biased ddb 8]
  | .diff dr dg db => [0x40#8 ||| (biased dr 2 <<< 4) ||| (biased dg 2 <<< 2) ||| biased db 2]
  | .index i => [i.setWidth 8]
  | .header w h ch cs => encodeHeader w h ch cs
  | .endMarker => endMarkerList

/-! ### Table words (the host's question about opcode-table rows) -/

/-- The first `n` bytes of a number, bits 7..0 first. -/
def bytesOfNat : Nat → Nat → List Byte
  | 0, _ => []
  | n + 1, w => BitVec.ofNat 8 w :: bytesOfNat n (w / 256)

/-- The match of the HEADER row as the table prints it, `0x716F6966`: a 32-bit number whose most significant byte is the
first byte of the stream (20_memory R61). -/
abbrev headerMatch : Nat := 0x716F6966

/-- The same four bytes when the first byte of the stream is bits 7..0. -/
abbrev headerMatchByBytes : Nat := 0x66696F71

/-- The row of the opcode table a table word belongs to. The END row is the only one of 64 bits; a word of 32 bits or
more that holds the magic is the HEADER row's; every other word starts with an opcode byte. -/
def tableRegion (nbits w : Nat) : Region :=
  if nbits = 64 then .trailer
  else if 32 ≤ nbits ∧ (w % 2 ^ 32 = headerMatch ∨ w % 2 ^ 32 = headerMatchByBytes) then .header
  else .chunks

/-- The bytes of a table word as they stand in the stream, first byte first, with zeros above `nbits` up to the longest
instruction (14 bytes). A chunk's byte 0 is bits 7..0. The table prints HEADER's and END's match as a number whose most
significant byte comes first: then the record's 32-bit fields are big-endian words (20_memory R61), and END is one 64-bit
number (20_memory R61 notes that it equals the big-endian value 1). -/
def tableBytes (nbits w : Nat) : List Byte :=
  let v := w % 2 ^ nbits
  match tableRegion nbits w with
  | .chunks => bytesOfNat headerBytes v
  | .header =>
    if v % 2 ^ 32 = headerMatch then
      be32 (BitVec.ofNat 32 v) ++ be32 (BitVec.ofNat 32 (v / 2 ^ 32)) ++ be32 (BitVec.ofNat 32 (v / 2 ^ 64))
        ++ bytesOfNat 2 (v / 2 ^ 96)
    else bytesOfNat headerBytes v
  | .trailer => if v = 1 then endMarkerList ++ bytesOfNat 6 0 else bytesOfNat headerBytes v

/-- The instruction the decoder reads from a table word. -/
def decodeTableWord (nbits w : Nat) : Option Instr :=
  match decode (tableRegion nbits w) (tableBytes nbits w) with
  | .ok (i, _) => some i
  | .error _ => none

end Sys2Proof
end

