-- ==== Sys2Proof/Machine/Operands.lean ====
section
/-! DEFINITION. Operand arithmetic: the hash, the channel wrap, the channel updates of DEC and the deltas of ENC
(40_byte_primitives R122, R125; 41_color_cache R130; 43_chunk_encoder R184, R186). -/

namespace Sys2Proof.Machine

/-- `wrap8`: the floor modulo 256 of an integer (40_byte_primitives R122). -/
def wrap8 (v : Int) : Byte := BitVec.ofNat 8 (v % 256).toNat

/-- A channel moved by a delta, wrapping modulo 256 (42_chunk_decoder R147, R148). -/
def moveChannel (ch : Byte) (d : Int) : Byte := wrap8 ((ch.toNat : Int) + d)

/-- A colour moved by three channel deltas, alpha unchanged (42_chunk_decoder R147, R148). -/
def moveColor (c : Color) (dr dg db : Int) : Color :=
  ⟨moveChannel c.r dr, moveChannel c.g dg, moveChannel c.b db, c.a⟩

/-- The weighted sum under the hash, exact (41_color_cache R130). -/
def hashSum (c : Color) : Nat := c.r.toNat * 3 + c.g.toNat * 5 + c.b.toNat * 7 + c.a.toNat * 11

/-- `hash`: the weighted sum modulo 64, as a 6-bit index (41_color_cache R130). -/
def colorHash (c : Color) : CacheIndex := BitVec.ofNat 6 (hashSum c)

/-- The signed difference of two channels, no wrap (43_chunk_encoder R186). -/
def channelDelta (ch prev : Byte) : Int := (ch.toNat : Int) - (prev.toNat : Int)

/-- The pixel ENC works with: alpha replaced by 255 for a 3-channel image (43_chunk_encoder R184). -/
def forceAlpha (channels : Byte) (c : Color) : Color := if channels = 3 then { c with a := 255 } else c

/-- `width * height` as an exact natural number (40_byte_primitives R125, 92 D22). -/
def pixelCount (w h : Word32) : Nat := w.toNat * h.toNat

end Sys2Proof.Machine
end

