-- ==== Sys2Proof/Machine/Flags.lean ====
section
/-! DEFINITION. The comparisons of the encoder. The hardware has no flags (10_state R33): each of these is consumed inside
the step that makes it, and none is stored. -/

namespace Sys2Proof.Machine

/-- All three deltas in [-2,1] (43_chunk_encoder R177). -/
abbrev FitsDiff (dr dg db : Int) : Prop := (-2 ≤ dr ∧ dr ≤ 1) ∧ (-2 ≤ dg ∧ dg ≤ 1) ∧ (-2 ≤ db ∧ db ≤ 1)

/-- `dg` in [-32,31], `ddr` and `ddb` in [-8,7] (43_chunk_encoder R178). -/
abbrev FitsLuma (ddr dg ddb : Int) : Prop :=
  (-32 ≤ dg ∧ dg ≤ 31) ∧ (-8 ≤ ddr ∧ ddr ≤ 7) ∧ (-8 ≤ ddb ∧ ddb ≤ 7)

/-- A channel count the engines accept (60_exceptions R212). -/
abbrev LegalChannels (ch : Byte) : Prop := ch = 3 ∨ ch = 4

end Sys2Proof.Machine
end

