-- ==== Sys2Proof/Machine/State.lean ====
section
/-! DEFINITION. The state of the machine (10_state): the registers and the ports of both engines, the reset port, and the
model's own fields (the parameter, the host's pending actions, the precedence, the counters of free values). -/

namespace Sys2Proof.Machine

/-- The colour cache: 64 slots of one `Color` each (10_state R34). -/
abbrev Cache := Vector Color 64

/-- `e_phase` (10_state R22). -/
inductive EncPhase where
  | idle
  | body
  | done
  | fault
  deriving DecidableEq, Repr

/-- `d_phase` (10_state R22). -/
inductive DecPhase where
  | idle
  | header
  | body
  | done
  | fault
  deriving DecidableEq, Repr

/-- The five fatal errors (60_exceptions R210). They are raised into the state (R216); none is a `Fault` of the step. -/
inductive ErrorKind where
  /-- Code 1, magic mismatch, DEC header step (60_exceptions R211). -/
  | formatError
  /-- Code 2, channel count not 3 or 4, DEC header step and ENC start step (60_exceptions R212). -/
  | unsupportedChannel
  /-- Code 3, `width*height > MAX_PIXELS`, DEC header step and ENC start step (60_exceptions R213). -/
  | dimensionLimit
  /-- Code 4, `eos` where a byte is needed, DEC header step and chunk step (60_exceptions R214). -/
  | truncatedStream
  /-- Code 5, a run would pass `target`, DEC chunk step (60_exceptions R215). -/
  | overrun
  deriving DecidableEq, Repr

/-- A fault record (10_state R29). `offset` is the field the spec calls `at`. -/
structure FaultRecord where
  code : BitVec 3
  offset : Nat
  pixels : Nat
  deriving DecidableEq, Repr

/-- An `enc_start` token (10_state R42). -/
structure EncCommand where
  width : Word32
  height : Word32
  channels : Byte
  colorspace : Byte
  deriving DecidableEq, Repr

/-- A token on an input port (10_state R44). `op` is the model's own: the number, counted from 0 at the last reset, of the
start command the host puts the token for. No step that consumes the token looks at it (log 6). -/
structure Marked (α : Type) where
  token : α
  op : Nat
  deriving DecidableEq, Repr

/-- A token of `byte_in` (10_state R44). -/
inductive InToken where
  | byte (v : Byte)
  | eos
  deriving DecidableEq, Repr

/-- A token of `e_stat` (10_state R47). -/
inductive EncStatus where
  | done (bytes : Nat)
  | fault (r : FaultRecord)
  deriving DecidableEq, Repr

/-- A token of `d_stat` (10_state R47). -/
inductive DecStatus where
  | hdr (w h : Word32) (ch cs : Byte)
  | done (bytes : Nat)
  | fault (r : FaultRecord)
  deriving DecidableEq, Repr

/-- ENC: its registers (10_state R23) and its ports (R40), each port oldest token first. -/
structure Enc where
  /-- `e_phase` -/
  phase : EncPhase
  /-- `e_prev` -/
  prev : Color
  /-- `e_run`, 6 bits -/
  run : BitVec 6
  /-- `e_cache` -/
  cache : Cache
  /-- `e_width` -/
  width : Word32
  /-- `e_height` -/
  height : Word32
  /-- `e_channels` -/
  channels : Byte
  /-- `e_colorspace` -/
  colorspace : Byte
  /-- `e_target` -/
  target : Nat
  /-- `e_count`, ENC's program counter (R32) -/
  count : Nat
  /-- `e_opos` -/
  opos : Nat
  /-- `e_fault` -/
  fault : FaultRecord
  /-- port `e_cmd` -/
  cmd : List EncCommand
  /-- port `pix_in` -/
  pixIn : List (Marked Color)
  /-- port `byte_out` -/
  byteOut : List Byte
  /-- port `e_stat` -/
  stat : List EncStatus
  /-- the model's own: how many start commands this engine has taken since the last reset (log 6) -/
  launches : Nat
  /-- the model's own: how many times this engine has drawn free values (log 5) -/
  free : Nat
  deriving DecidableEq, Repr

/-- DEC: its registers (10_state R24) and its ports (R40), each port oldest token first. -/
structure Dec where
  /-- `d_phase` -/
  phase : DecPhase
  /-- `d_prev` -/
  prev : Color
  /-- `d_cache` -/
  cache : Cache
  /-- `d_width` -/
  width : Word32
  /-- `d_height` -/
  height : Word32
  /-- `d_channels` -/
  channels : Byte
  /-- `d_colorspace` -/
  colorspace : Byte
  /-- `d_target` -/
  target : Nat
  /-- `d_count` -/
  count : Nat
  /-- `d_ipos`, DEC's program counter (R31) -/
  ipos : Nat
  /-- `d_fault` -/
  fault : FaultRecord
  /-- port `d_cmd`: `dec_start` tokens carry no payload, so the port is their number -/
  cmd : Nat
  /-- port `byte_in` -/
  byteIn : List (Marked InToken)
  /-- port `pix_out` -/
  pixOut : List Color
  /-- port `d_stat` -/
  stat : List DecStatus
  /-- the model's own: how many start commands this engine has taken since the last reset (log 6) -/
  launches : Nat
  /-- the model's own: how many times this engine has drawn free values (log 5) -/
  free : Nat
  deriving DecidableEq, Repr

/-- The three agents (00_scope R6). -/
inductive Agent where
  | enc
  | dec
  | host
  deriving DecidableEq, Repr

/-- What the host can do to the machine (10_state R40 to R45; 70_reset R242, R246 to R249). -/
inductive HostAction where
  /-- put a token on `reset` (R41) -/
  | putReset
  /-- put a token on `e_cmd` (R42) -/
  | putEncStart (c : EncCommand)
  /-- put a token on `pix_in` (R44), for the start command of number `op` (log 6) -/
  | putPixel (c : Color) (op : Nat)
  /-- put a token on `d_cmd` (R43) -/
  | putDecStart
  /-- put a `byte` token on `byte_in` (R44), for the start command of number `op` (log 6) -/
  | putByte (v : Byte) (op : Nat)
  /-- put an `eos` token on `byte_in` (R44), for the start command of number `op` (log 6) -/
  | putEos (op : Nat)
  /-- take the oldest token of `byte_out` (R45) -/
  | takeByte
  /-- take the oldest token of `pix_out` (R45) -/
  | takePixel
  /-- take the oldest token of `e_stat` (R47) -/
  | takeEncStatus
  /-- take the oldest token of `d_stat` (R47) -/
  | takeDecStatus
  /-- remove the oldest token of `pix_in` between operations (70_reset R247; log 14) -/
  | dropPixel
  /-- remove the oldest token of `byte_in` between operations (70_reset R247; log 14) -/
  | dropInput
  /-- no action of the hardware's host: it sets which agent has precedence from here on (log 4) -/
  | setTurn (a : Agent)
  deriving DecidableEq, Repr

/-- Why a step stops. There is no constructor: the spec names no event that stops the machine. Its five errors are
entries into phase FAULT (60_exceptions R216), which leave the engine able to start again (R222), and an engine without
its tokens waits (10_state R46). Nothing raises a `Fault`; that is safe, for nothing the spec forbids is then allowed. -/
inductive Fault where
  deriving DecidableEq, Repr

/-- Why a step has no meaning. -/
inductive Refusal where
  /-- Raised by the start step of an engine whose input port begins with a token left over from an ended operation: the host
  has not removed it (70_reset R247), and 93 U14 says to refuse such a launch. Safe: the model stops. -/
  | undrainedLaunch (e : Engine)
  /-- Raised only by an arm of `exec` that has no meaning yet; there is none. Safe: the model stops. -/
  | notModelled (mnemonic : String)
  deriving DecidableEq, Repr

/-- The whole machine. The engines hold every register and port of 10_state; `rst` is the port `reset` (R40), whose tokens
carry no payload. -/
structure State where
  /-- ENC -/
  enc : Enc
  /-- DEC -/
  dec : Dec
  /-- port `reset`: the number of tokens on it -/
  rst : Nat
  /-- the model's own: the parameter (log 2) -/
  cfg : Config
  /-- the model's own: what the host has still to do, in order (log 3) -/
  host : List HostAction
  /-- the model's own: the agent with precedence (log 4) -/
  turn : Agent
  deriving DecidableEq, Repr

/-- The cache with every slot at one colour. -/
def Cache.filled (c : Color) : Cache := Vector.replicate 64 c

/-- ENC right after reset: phase IDLE, ports empty (10_state R37, R41). The spec gives the other registers no value;
theirs are the model's (log 1). -/
def Enc.reset : Enc where
  phase := .idle
  prev := ⟨0, 0, 0, 0⟩
  run := 0
  cache := Cache.filled ⟨0, 0, 0, 0⟩
  width := 0
  height := 0
  channels := 0
  colorspace := 0
  target := 0
  count := 0
  opos := 0
  fault := ⟨0, 0, 0⟩
  cmd := []
  pixIn := []
  byteOut := []
  stat := []
  launches := 0
  free := 0

/-- DEC right after reset: phase IDLE, ports empty (10_state R37, R41). The spec gives the other registers no value;
theirs are the model's (log 1). -/
def Dec.reset : Dec where
  phase := .idle
  prev := ⟨0, 0, 0, 0⟩
  cache := Cache.filled ⟨0, 0, 0, 0⟩
  width := 0
  height := 0
  channels := 0
  colorspace := 0
  target := 0
  count := 0
  ipos := 0
  fault := ⟨0, 0, 0⟩
  cmd := 0
  byteIn := []
  pixOut := []
  stat := []
  launches := 0
  free := 0

/-- The machine right after reset (10_state R37, R41; 70_reset R240). The parameter's value here is the model's (log 2), and
so are the empty list of host actions and the precedence (logs 3, 4). -/
def State.reset : State where
  enc := Enc.reset
  dec := Dec.reset
  rst := 0
  cfg := ⟨2 ^ 64 - 1⟩
  host := []
  turn := .dec

end Sys2Proof.Machine
end

