-- ==== Sys2Proof/Machine/Ops.lean ====
section
/-! DEFINITION. The named operations: cache access, stream access, fault entry, emitting a pixel, ending an item, and what
the start steps and the reset token write. -/

namespace Sys2Proof.Machine

/-! ### The colour cache (41_color_cache) -/

/-- `lookup` (41_color_cache R132). -/
def Cache.lookup (m : Cache) (i : CacheIndex) : Color := m[i.toNat]'i.isLt

/-- `store` (41_color_cache R133). -/
def Cache.store (m : Cache) (c : Color) : Cache := m.set (colorHash c).toNat c (colorHash c).isLt

/-- `clear` (41_color_cache R134). -/
def Cache.clear : Cache := Cache.filled initCacheEntry

/-! ### The input stream of DEC (20_memory R62) -/

/-- What `MemRead` finds on `byte_in`. -/
inductive ReadResult where
  /-- the bytes have not all arrived: the step is not enabled -/
  | wait
  /-- an `eos` stands before the last of them: TruncatedStreamError -/
  | eos
  /-- the bytes -/
  | bytes (l : List Byte)
  deriving DecidableEq, Repr

/-- A byte put before what the rest of a read finds. -/
def ReadResult.push (b : Byte) : ReadResult → ReadResult
  | .bytes l => .bytes (b :: l)
  | .wait => .wait
  | .eos => .eos

/-- `MemRead` of the next `n` bytes; it takes nothing from the port (20_memory R62). -/
def memRead : Nat → List InToken → ReadResult
  | 0, _ => .bytes []
  | _ + 1, [] => .wait
  | _ + 1, .eos :: _ => .eos
  | n + 1, .byte b :: rest => (memRead n rest).push b

/-- The tokens on `byte_in` as DEC reads them, oldest first. -/
def Dec.stream (d : Dec) : List InToken := d.byteIn.map Marked.token

/-! ### Leftover input at a start (70_reset R247, 93 U14; log 6) -/

/-- The oldest token of an input port was put for a start command before number `launches`, the one a start would take now:
it is left over from an ended operation. An empty port has no leftover, and neither has one that begins with a token of the
next operation or of a later one. -/
def leftoverFirst {α : Type} (launches : Nat) : List (Marked α) → Bool
  | [] => false
  | t :: _ => decide (t.op < launches)

/-- ENC's next start would find a leftover pixel first. -/
def Enc.undrained (x : Enc) : Bool := leftoverFirst x.launches x.pixIn

/-- DEC's next start would find a leftover token first. -/
def Dec.undrained (d : Dec) : Bool := leftoverFirst d.launches d.byteIn

/-! ### Fault entry (60_exceptions R216), one operation for both engines; there is no return from a fault (R221) -/

/-- The code of an error (60_exceptions R210). -/
def ErrorKind.code : ErrorKind → BitVec 3
  | .formatError => 1
  | .unsupportedChannel => 2
  | .dimensionLimit => 3
  | .truncatedStream => 4
  | .overrun => 5

/-- The record a raise writes (60_exceptions R216). -/
def faultRecord (e : ErrorKind) (offset pixels : Nat) : FaultRecord := ⟨e.code, offset, pixels⟩

/-- `raise e(offset)` in ENC (60_exceptions R216). -/
def Enc.raise (e : ErrorKind) (offset : Nat) (x : Enc) : Enc :=
  { x with
    fault := faultRecord e offset x.count
    phase := .fault
    stat := x.stat ++ [.fault (faultRecord e offset x.count)] }

/-- `raise e(offset)` in DEC (60_exceptions R216). -/
def Dec.raise (e : ErrorKind) (offset : Nat) (d : Dec) : Dec :=
  { d with
    fault := faultRecord e offset d.count
    phase := .fault
    stat := d.stat ++ [.fault (faultRecord e offset d.count)] }

/-! ### ENC's output (20_memory R63) -/

/-- `MemWrite(opos, n, v)` (20_memory R63). -/
def Enc.memWrite (v : List Byte) (x : Enc) : Enc := { x with byteOut := x.byteOut ++ v, opos := x.opos + v.length }

/-- `emit X`: the bytes of an item (43_chunk_encoder, opening paragraph; 30_encoding R112). -/
def Enc.emit (i : Instr) (x : Enc) : Enc := x.memWrite (encode i)

/-- The end of an encode: the end marker, phase DONE, `done(opos)` (43_chunk_encoder R171, R182; 44_header_codec R203). -/
def Enc.finish (x : Enc) : Enc :=
  let y := x.emit .endMarker
  { y with phase := .done, stat := y.stat ++ [.done y.opos] }

/-! ### DEC's pixels (42_chunk_decoder R142, R143) -/

/-- `EmitPixel(c, doStore)` (42_chunk_decoder R142). `error` carries the state after the raise: nothing of the step's
remaining pseudocode runs then (60_exceptions R216). -/
def Dec.emitPixel (c : Color) (doStore : Bool) (d : Dec) : Except Dec Dec :=
  if d.count = d.target then .error (d.raise .overrun d.ipos)
  else .ok
    { d with
      pixOut := d.pixOut ++ [c]
      cache := if doStore then d.cache.store c else d.cache
      prev := c
      count := d.count + 1 }

/-- `EmitPixel(prev, false)`, `n` times (42_chunk_decoder R146). -/
def Dec.emitRun : Nat → Dec → Except Dec Dec
  | 0, d => .ok d
  | n + 1, d =>
    match d.emitPixel d.prev false with
    | .ok d' => d'.emitRun n
    | .error d' => .error d'

/-- The end of a chunk step: its bytes leave the port, `ipos` advances, and the operation ends when `count = target`
(42_chunk_decoder R143, R151; 20_memory R62). -/
def Dec.finishChunk (len : Nat) (d : Dec) : Dec :=
  let d' : Dec := { d with byteIn := d.byteIn.drop len, ipos := d.ipos + len }
  if d'.count = d'.target then { d' with phase := .done, stat := d'.stat ++ [.done d'.ipos] } else d'

/-- The end of a chunk step, or the raise it met (42_chunk_decoder R143). -/
def Dec.endChunk (len : Nat) : Except Dec Dec → Dec
  | .ok d => d.finishChunk len
  | .error d => d

/-- A chunk step around the execution of its chunk (42_chunk_decoder R143). It is enabled in BODY only; elsewhere DEC waits
(10_state R46, log 9). -/
def chunkStep (len : Nat) (run : Dec → Except Dec Dec) (s : State) : Host.Outcome State Fault Refusal :=
  if s.dec.phase = .body then .next { s with dec := Dec.endChunk len (run s.dec) } else .next s

/-! ### What is unspecified (10_state R37, R38): free values, log 5 -/

/-- A fault record that is no longer meaningful. -/
def freeFault (e : Engine) (k : Nat) : FaultRecord :=
  ⟨Config.freeFaultCode e k, Config.freeFaultOffset e k, Config.freeFaultPixels e k⟩

/-- A cache of unspecified content. -/
def freeCache (e : Engine) (k : Nat) : Cache := Vector.ofFn fun i => Config.freeSlot e k i.val

/-- ENC after the `reset` token: phase IDLE, its ports empty, every other register unspecified (10_state R37, R41). -/
def Enc.afterReset (x : Enc) : Enc where
  phase := .idle
  prev := Config.freePrev .enc x.free
  run := Config.freeRun x.free
  cache := freeCache .enc x.free
  width := Config.freeWidth .enc x.free
  height := Config.freeHeight .enc x.free
  channels := Config.freeChannels .enc x.free
  colorspace := Config.freeColorspace .enc x.free
  target := Config.freeTarget .enc x.free
  count := Config.freeCount .enc x.free
  opos := Config.freePosition .enc x.free
  fault := freeFault .enc x.free
  cmd := []
  pixIn := []
  byteOut := []
  stat := []
  launches := 0
  free := x.free + 1

/-- DEC after the `reset` token: phase IDLE, its ports empty, every other register unspecified (10_state R37, R41). -/
def Dec.afterReset (d : Dec) : Dec where
  phase := .idle
  prev := Config.freePrev .dec d.free
  cache := freeCache .dec d.free
  width := Config.freeWidth .dec d.free
  height := Config.freeHeight .dec d.free
  channels := Config.freeChannels .dec d.free
  colorspace := Config.freeColorspace .dec d.free
  target := Config.freeTarget .dec d.free
  count := Config.freeCount .dec d.free
  ipos := Config.freePosition .dec d.free
  fault := freeFault .dec d.free
  cmd := 0
  byteIn := []
  pixOut := []
  stat := []
  launches := 0
  free := d.free + 1

end Sys2Proof.Machine
end

