-- ==== Sys2Proof/Machine/Commands.lean ====
section
/-! DEFINITION. The commands that no chunk carries: DEC's start step and the reset token. -/

namespace Sys2Proof.Machine

/-- The DEC start step (10_state R38, R43): it takes the `dec_start` token, re-initialises, and enters HEADER. The header
latches, `target` and the fault record are unspecified until a later step writes them: free values. -/
def Dec.start (d : Dec) : Dec :=
  { d with
    cmd := d.cmd - 1
    prev := initPrev
    cache := Cache.clear
    count := 0
    ipos := 0
    width := Config.freeWidth .dec d.free
    height := Config.freeHeight .dec d.free
    channels := Config.freeChannels .dec d.free
    colorspace := Config.freeColorspace .dec d.free
    target := Config.freeTarget .dec d.free
    fault := freeFault .dec d.free
    free := d.free + 1
    launches := d.launches + 1
    phase := .header }

/-- The reset token (10_state R41): taken from its port; both phases IDLE, the eight other ports emptied, every other
register unspecified. The host's own pending actions and the parameter are no state of the engines and stay. -/
def State.takeReset (s : State) : State :=
  { s with enc := s.enc.afterReset, dec := s.dec.afterReset, rst := s.rst - 1 }

end Sys2Proof.Machine
end

