-- ==== Sys2Proof/Machine/Deltas.lean ====
section
/-! DEFINITION. The chunks that carry differences to the previous pixel: LUMA and DIFF, as DEC executes them. -/

namespace Sys2Proof.Machine

/-- LUMA (42_chunk_decoder R147): red and blue deltas are relative to the green delta; one pixel, stored. -/
def execLuma (ddr dg ddb : Int) (s : State) : Host.Outcome State Fault Refusal :=
  chunkStep 2 (fun d => d.emitPixel (moveColor d.prev (ddr + dg) dg (ddb + dg)) true) s

/-- DIFF (42_chunk_decoder R148): one pixel, stored. -/
def execDiff (dr dg db : Int) (s : State) : Host.Outcome State Fault Refusal :=
  chunkStep 1 (fun d => d.emitPixel (moveColor d.prev dr dg db) true) s

end Sys2Proof.Machine
end

