-- ==== Sys2Proof/Machine/Literals.lean ====
section
/-! DEFINITION. The chunks that carry channel values: RGBA and RGB, as DEC executes them. -/

namespace Sys2Proof.Machine

/-- RGBA (42_chunk_decoder R144): one pixel, all four channels from the chunk, stored. -/
def execRgba (r g b a : Byte) (s : State) : Host.Outcome State Fault Refusal :=
  chunkStep 5 (fun d => d.emitPixel ⟨r, g, b, a⟩ true) s

/-- RGB (42_chunk_decoder R145): one pixel, alpha from `prev`, stored. -/
def execRgb (r g b : Byte) (s : State) : Host.Outcome State Fault Refusal :=
  chunkStep 4 (fun d => d.emitPixel ⟨r, g, b, d.prev.a⟩ true) s

end Sys2Proof.Machine
end

