-- ==== Sys2Proof/Machine/Records.lean ====
section
/-! DEFINITION. The two records of the stream: HEADER, which DEC's header step executes, and END, which ENC writes and DEC
never reads. -/

namespace Sys2Proof.Machine

/-- DEC's header step from the fields of a header with the right magic (42_chunk_decoder R141): the channel count, then the
dimension limit (60_exceptions R219), then the latches, the `hdr` token, and BODY or DONE. -/
def Dec.acceptHeader (cfg : Config) (w h : Word32) (ch cs : Byte) (d : Dec) : Dec :=
  if ¬ LegalChannels ch then d.raise .unsupportedChannel 0
  else if cfg.maxPixels < pixelCount w h then d.raise .dimensionLimit 0
  else
    let d' : Dec :=
      { d with
        width := w
        height := h
        channels := ch
        colorspace := cs
        target := pixelCount w h
        ipos := headerBytes
        byteIn := d.byteIn.drop headerBytes
        stat := d.stat ++ [.hdr w h ch cs] }
    if d'.target = 0 then { d' with phase := .done, stat := d'.stat ++ [.done headerBytes] }
    else { d' with phase := .body }

/-- HEADER (42_chunk_decoder R141). It is enabled in phase HEADER only; elsewhere DEC waits (10_state R46, log 9). -/
def execHeader (w h : Word32) (ch cs : Byte) (s : State) : Host.Outcome State Fault Refusal :=
  if s.dec.phase = .header then .next { s with dec := s.dec.acceptHeader s.cfg w h ch cs } else .next s

/-- END (43_chunk_encoder R182, 44_header_codec R203): ENC, past the last pixel of its image, appends the end marker,
enters DONE and reports `done(opos)`. DEC neither reads, consumes nor checks it (42_chunk_decoder R157, 60_exceptions R226),
so DEC is as before. At any other point ENC writes no end marker (log 10). -/
def execEndMarker (s : State) : Host.Outcome State Fault Refusal :=
  if s.enc.phase = .body ∧ s.enc.count = s.enc.target then .next { s with enc := s.enc.finish } else .next s

end Sys2Proof.Machine
end

