-- ==== Sys2Proof/Machine/Repeats.lean ====
section
/-! DEFINITION. The chunks that repeat a colour seen before: RUN and INDEX, as DEC executes them. -/

namespace Sys2Proof.Machine

/-- RUN (42_chunk_decoder R146, R150): `n` pixels equal to `prev`, none stored; those that fit are emitted before an
overrun is raised (60_exceptions R215). -/
def execRun (n : Nat) (s : State) : Host.Outcome State Fault Refusal :=
  chunkStep 1 (fun d => d.emitRun n) s

/-- INDEX (42_chunk_decoder R149, 90 C5): the colour in slot `i`, emitted and stored at its own hash. -/
def execIndex (i : CacheIndex) (s : State) : Host.Outcome State Fault Refusal :=
  chunkStep 1 (fun d => d.emitPixel (d.cache.lookup i) true) s

end Sys2Proof.Machine
end

