-- ==== Sys2Proof/Machine/Dispatch.lean ====
section
/-! DEFINITION. The meaning of every instruction, one arm per constructor of `Instr`. -/

namespace Sys2Proof.Machine

/-- The meaning of an item of the stream. -/
def exec (i : Instr) (s : State) : Host.Outcome State Fault Refusal :=
  match i with
  | .rgba r g b a => Sys2Proof.Machine.execRgba r g b a s
  | .rgb r g b => Sys2Proof.Machine.execRgb r g b s
  | .run n => Sys2Proof.Machine.execRun n s
  | .luma ddr dg ddb => Sys2Proof.Machine.execLuma ddr dg ddb s
  | .diff dr dg db => Sys2Proof.Machine.execDiff dr dg db s
  | .index k => Sys2Proof.Machine.execIndex k s
  | .header w h ch cs => Sys2Proof.Machine.execHeader w h ch cs s
  | .endMarker => Sys2Proof.Machine.execEndMarker s

end Sys2Proof.Machine
end

