-- ==== Sys2Proof/Machine/Encoder.lean ====
section
/-! DEFINITION. ENC (43_chunk_encoder): its start step, the choice of a chunk for a pixel, its pixel step. -/

namespace Sys2Proof.Machine

/-! ### The start step (43_chunk_encoder R171) -/

/-- What every ENC start step writes first (10_state R38), the latches of the command included, whether or not the command is
then accepted (log 7). The fault record is unspecified from here on: a free value. -/
def Enc.initialise (c : EncCommand) (x : Enc) : Enc :=
  { x with
    prev := initPrev
    cache := Cache.clear
    run := 0
    count := 0
    opos := 0
    width := c.width
    height := c.height
    channels := c.channels
    colorspace := c.colorspace
    target := pixelCount c.width c.height
    launches := x.launches + 1
    fault := freeFault .enc x.free
    free := x.free + 1 }

/-- The ENC start step for one command (43_chunk_encoder R171), the command already taken from `e_cmd` (log 8). -/
def Enc.start (cfg : Config) (c : EncCommand) (x : Enc) : Enc :=
  let y := x.initialise c
  if ¬ LegalChannels c.channels then y.raise .unsupportedChannel 0
  else if cfg.maxPixels < pixelCount c.width c.height then y.raise .dimensionLimit 0
  else
    let z := y.emit (.header c.width c.height c.channels c.colorspace)
    if z.target = 0 then z.finish else { z with phase := .body }

/-! ### The choice of a chunk (43_chunk_encoder R175 to R180, R183, R186) -/

/-- The chunk for a pixel that differs from `prev` and misses the cache (43_chunk_encoder R177 to R180). -/
def literalChunk (prev c : Color) : Instr :=
  if c.a = prev.a then
    let dr := channelDelta c.r prev.r
    let dg := channelDelta c.g prev.g
    let db := channelDelta c.b prev.b
    if FitsDiff dr dg db then .diff dr dg db
    else if FitsLuma (dr - dg) dg (db - dg) then .luma (dr - dg) dg (db - dg)
    else .rgb c.r c.g c.b
  else .rgba c.r c.g c.b c.a

/-- A pending run is written as one RUN chunk and the run counter cleared (43_chunk_encoder R173, R174). -/
def Enc.flushRun (x : Enc) : Enc := { x.emit (.run x.run.toNat) with run := 0 }

/-- A pixel equal to `prev` lengthens the run, which is flushed at 62 pixels or at the last pixel (43_chunk_encoder R173).
No cache access. -/
def Enc.lengthenRun (last : Bool) (x : Enc) : Enc :=
  let y := { x with run := x.run + 1 }
  if y.run = 62 ∨ last = true then y.flushRun else y

/-- The chunk for a pixel that differs from `prev`: INDEX on a hit, whatever else would fit (43_chunk_encoder R175, R183),
else the literal chunk. -/
def chooseChunk (m : Cache) (prev c : Color) : Instr :=
  if m.lookup (colorHash c) = c then .index (colorHash c) else literalChunk prev c

/-- The cache after a pixel that differs from `prev`: stored on a miss, before the chunk is written (43_chunk_encoder R175,
R176). -/
def cacheAfterChange (m : Cache) (c : Color) : Cache := if m.lookup (colorHash c) = c then m else m.store c

/-- A pixel that differs from `prev`: the pending run first (43_chunk_encoder R174), then the cache, then the chunk. -/
def Enc.encodeChange (c : Color) (x : Enc) : Enc :=
  let y := if 0 < x.run.toNat then x.flushRun else x
  let z : Enc := { y with cache := cacheAfterChange y.cache c }
  z.emit (chooseChunk y.cache y.prev c)

/-- DOC's steps 1 to 6 for the pixel `c` (43_chunk_encoder R172, R181), less the end of the image. -/
def Enc.encodePixel (c : Color) (x : Enc) : Enc :=
  let last : Bool := decide (x.count + 1 = x.target)
  let y := if c = x.prev then x.lengthenRun last else x.encodeChange c
  { y with prev := c, count := y.count + 1 }

/-- The pixel step for a pixel token (43_chunk_encoder R172), the token already taken from `pix_in`. -/
def Enc.pixelStep (p : Color) (x : Enc) : Enc :=
  let y := x.encodePixel (forceAlpha x.channels p)
  if y.count = y.target then y.finish else y

end Sys2Proof.Machine
end

