-- ==== Sys2Proof/Machine/Fetch.lean ====
section
/-! DEFINITION. DEC's fetch: which item, if any, the bytes on `byte_in` give the phase DEC is in. -/

namespace Sys2Proof.Machine

/-- What DEC finds when it looks for its next item. -/
inductive Fetched where
  /-- The bytes have not arrived, or DEC is in a phase that reads none: the step is not enabled (10_state R46). -/
  | wait
  /-- The item cannot be read: the error its step raises, and where. -/
  | error (e : ErrorKind) (offset : Nat)
  /-- The item. -/
  | item (i : Instr)
  deriving DecidableEq, Repr

/-- The error of the header step when its 14 bytes are no header record (42_chunk_decoder R141). -/
def headerError : DecodeError → ErrorKind
  | .truncated => .truncatedStream
  | .badMagic => .formatError
  | .badChannels => .unsupportedChannel
  | .notEndMarker => .formatError

/-- The fetch of the header step: `MemRead(0, 14)`, then the magic (42_chunk_decoder R141, 60_exceptions R219). -/
def fetchHeader (d : Dec) : Fetched :=
  match memRead headerBytes d.stream with
  | .wait => .wait
  | .eos => .error .truncatedStream 0
  | .bytes l =>
    match decode .header l with
    | .ok (i, _) => .item i
    | .error e => .error (headerError e) 0

/-- The fetch of the chunk step: the opcode byte, then the whole chunk (42_chunk_decoder R143). -/
def fetchChunk (d : Dec) : Fetched :=
  match memRead 1 d.stream with
  | .wait => .wait
  | .eos => .error .truncatedStream d.ipos
  | .bytes op =>
    match memRead (chunkLength (op.headD 0)) d.stream with
    | .wait => .wait
    | .eos => .error .truncatedStream d.ipos
    | .bytes l =>
      match decode .chunks l with
      | .ok (i, _) => .item i
      | .error _ => .error .truncatedStream d.ipos

/-- The fetch of DEC's phase: a header in HEADER, a chunk in BODY, nothing elsewhere (10_state R46). -/
def Dec.fetch (d : Dec) : Fetched :=
  match d.phase with
  | .header => fetchHeader d
  | .body => fetchChunk d
  | .idle => .wait
  | .done => .wait
  | .fault => .wait

end Sys2Proof.Machine
end

