-- ==== Sys2Proof/Machine/HostSide.lean ====
section
/-! DEFINITION. The host's side of the ports (10_state R40 to R45; 70_reset R242, R246 to R249). -/

namespace Sys2Proof.Machine

/-- ENC takes a start command in these phases (10_state R42); between operations the host may drain `pix_in` (70_reset
R247). -/
def EncPhase.takesStart : EncPhase → Bool
  | .idle => true
  | .body => false
  | .done => true
  | .fault => true

/-- DEC takes a start command in these phases (10_state R43); between operations the host may drain `byte_in` (70_reset
R247). -/
def DecPhase.takesStart : DecPhase → Bool
  | .idle => true
  | .header => false
  | .body => false
  | .done => true
  | .fault => true

/-- ENC's oldest pixel token leaves `pix_in` for the host, in IDLE, DONE or FAULT (70_reset R247). DESIGN CHOICE (log 14): any
token, left over or not, and also while a start command is queued, on which R247 is silent. -/
def Enc.dropPixel (x : Enc) : Option Enc :=
  match x.phase.takesStart, x.pixIn with
  | true, _ :: rest => some { x with pixIn := rest }
  | _, _ => none

/-- DEC's oldest input token leaves `byte_in` for the host, in IDLE, DONE or FAULT (70_reset R247). DESIGN CHOICE (log 14):
any token, left over or not, and also while a start command is queued, on which R247 is silent. -/
def Dec.dropInput (d : Dec) : Option Dec :=
  match d.phase.takesStart, d.byteIn with
  | true, _ :: rest => some { d with byteIn := rest }
  | _, _ => none

/-- The host takes ENC's oldest output byte (10_state R45). -/
def Enc.takeByte (x : Enc) : Option Enc :=
  match x.byteOut with
  | [] => none
  | _ :: rest => some { x with byteOut := rest }

/-- The host takes ENC's oldest status token (10_state R47). -/
def Enc.takeStatus (x : Enc) : Option Enc :=
  match x.stat with
  | [] => none
  | _ :: rest => some { x with stat := rest }

/-- The host takes DEC's oldest pixel (10_state R45). -/
def Dec.takePixel (d : Dec) : Option Dec :=
  match d.pixOut with
  | [] => none
  | _ :: rest => some { d with pixOut := rest }

/-- The host takes DEC's oldest status token (10_state R47). -/
def Dec.takeStatus (d : Dec) : Option Dec :=
  match d.stat with
  | [] => none
  | _ :: rest => some { d with stat := rest }

/-- One action of the host; `none` when it must wait for a token to take, or for the engine to end its operation. A put
always succeeds: the ports are unbounded (10_state R40, 70_reset R246). -/
def HostAction.perform (s : State) : HostAction → Option State
  | .putReset => some { s with rst := s.rst + 1 }
  | .putEncStart c => some { s with enc := { s.enc with cmd := s.enc.cmd ++ [c] } }
  | .putPixel c op => some { s with enc := { s.enc with pixIn := s.enc.pixIn ++ [⟨c, op⟩] } }
  | .putDecStart => some { s with dec := { s.dec with cmd := s.dec.cmd + 1 } }
  | .putByte v op => some { s with dec := { s.dec with byteIn := s.dec.byteIn ++ [⟨.byte v, op⟩] } }
  | .putEos op => some { s with dec := { s.dec with byteIn := s.dec.byteIn ++ [⟨.eos, op⟩] } }
  | .takeByte => s.enc.takeByte.map fun x => { s with enc := x }
  | .takePixel => s.dec.takePixel.map fun d => { s with dec := d }
  | .takeEncStatus => s.enc.takeStatus.map fun x => { s with enc := x }
  | .takeDecStatus => s.dec.takeStatus.map fun d => { s with dec := d }
  | .dropPixel => s.enc.dropPixel.map fun x => { s with enc := x }
  | .dropInput => s.dec.dropInput.map fun d => { s with dec := d }
  | .setTurn a => some { s with turn := a }

/-- The host's next action, if it can be done now. -/
def hostStep (s : State) : Option State :=
  match s.host with
  | [] => none
  | a :: rest => (a.perform s).map fun t => { t with host := rest }

end Sys2Proof.Machine
end

