-- ==== Sys2Proof/Machine/Agents.lean ====
section
/-! DEFINITION. The steps of the three agents (10_state R46), each `none` when the agent's step is not enabled, and which
agent goes first. -/

namespace Sys2Proof.Machine

/-- One step of DEC: a start step in IDLE, DONE, FAULT when a command waits (10_state R43), the header step in HEADER, the
chunk step in BODY (42_chunk_decoder R141, R143). A start that finds leftover input is refused (93 U14). -/
def decStep (s : State) : Option (Host.Outcome State Fault Refusal) :=
  if s.dec.phase.takesStart = true then
    if s.dec.cmd = 0 then none
    else if s.dec.undrained = true then some (.refused (.undrainedLaunch .dec))
    else some (.next { s with dec := s.dec.start })
  else
    match s.dec.fetch with
    | .wait => none
    | .error e offset => some (.next { s with dec := s.dec.raise e offset })
    | .item i => some (exec i s)

/-- One step of ENC: a start step in IDLE, DONE, FAULT when a command waits (10_state R42), refused when it finds
leftover input (93 U14); the pixel step in BODY when a pixel waits (43_chunk_encoder R172). With no pixel left to
consume, which the pixel step never leaves in BODY (R172), the item due is END (log 10). -/
def encStep (s : State) : Option (Host.Outcome State Fault Refusal) :=
  if s.enc.phase.takesStart = true then
    match s.enc.cmd with
    | [] => none
    | c :: rest =>
      if s.enc.undrained = true then some (.refused (.undrainedLaunch .enc))
      else some (.next { s with enc := Enc.start s.cfg c { s.enc with cmd := rest } })
  else if s.enc.count = s.enc.target then some (exec .endMarker s)
  else
    match s.enc.pixIn with
    | [] => none
    | p :: rest => some (.next { s with enc := Enc.pixelStep p.token { s.enc with pixIn := rest } })

/-- The step of one agent. -/
def Agent.step : Agent → State → Option (Host.Outcome State Fault Refusal)
  | .enc, s => encStep s
  | .dec, s => decStep s
  | .host, s => (hostStep s).map .next

/-- The agent after this one in the fixed round. -/
def Agent.following : Agent → Agent
  | .dec => .enc
  | .enc => .host
  | .host => .dec

/-- The step of the first agent, from the one with precedence on, whose step is enabled; when none is, the machine waits
(10_state R46), which is no error (60_exceptions R214, 70_reset R246). -/
def agentsStep (s : State) : Host.Outcome State Fault Refusal :=
  match s.turn.step s with
  | some o => o
  | none =>
    match s.turn.following.step s with
    | some o => o
    | none =>
      match s.turn.following.following.step s with
      | some o => o
      | none => .next s

/-- DEC with its next item on `byte_in` and in the phase that reads it: chunks need BODY and room for up to 62 pixels
(42_chunk_decoder R143, R146), a header needs HEADER (R141). -/
def Dec.withItem (header : Bool) (bytes : List Byte) (d : Dec) : Dec :=
  let d' : Dec := { d with byteIn := bytes.map (⟨.byte ·, d.launches - 1⟩) ++ d.byteIn.drop bytes.length }
  if header then { d' with phase := .header }
  else { d' with phase := .body, target := max d.target (d.count + runMax) }

/-- ENC where END is due: BODY with every pixel consumed (43_chunk_encoder R182). -/
def Enc.withEndDue (x : Enc) : Enc := { x with phase := .body, count := x.target }

/-- The state whose next step runs the instruction of a table word (log 11): no reset token waiting, the engine that runs it
with precedence, and that engine ready. -/
def State.placeTableWord (s : State) (nbits w : Nat) : State :=
  match tableRegion nbits w with
  | .chunks => { s with rst := 0, turn := .dec, dec := s.dec.withItem false (tableBytes nbits w) }
  | .header => { s with rst := 0, turn := .dec, dec := s.dec.withItem true (tableBytes nbits w) }
  | .trailer => { s with rst := 0, turn := .enc, enc := s.enc.withEndDue }

end Sys2Proof.Machine
end

