-- ==== Sys2Proof/Machine/Step.lean ====
section
/-! DEFINITION. One step of the machine, and the placing of an instruction where the next step runs it. -/

namespace Sys2Proof.Machine

/-- One step: a waiting reset token is taken first (10_state R41, log 4); otherwise one agent takes its step. -/
def step (s : State) : Host.Outcome State Fault Refusal :=
  if s.rst = 0 then agentsStep s else .next s.takeReset

/-- `s` with the instruction of a table word where the next step fetches it (log 11). -/
def State.withFetchWord (s : State) (nbits w : Nat) : State := s.placeTableWord nbits w

end Sys2Proof.Machine
end

