-- ==== Sys2Proof/Machine/Operations.lean ====
section
/-! DEFINITION. The whole operations as functions of their input: `Decode(S)` (42_chunk_decoder R158) and
`Encode(w,h,ch,cs,P)` (43_chunk_encoder R188). Each runs one engine's own steps from a launch. -/

namespace Sys2Proof.Machine

/-- What a decode operation yields (42_chunk_decoder R158). -/
inductive DecodeResult where
  | ok (w h : Word32) (ch cs : Byte) (pixels : List Color) (used : Nat)
  | error (r : FaultRecord) (pixels : List Color)
  deriving DecidableEq, Repr

/-- What an encode operation yields (43_chunk_encoder R188). -/
inductive EncodeResult where
  | ok (bytes : List Byte)
  | error (code : BitVec 3)
  deriving DecidableEq, Repr

/-- The state after reset of a machine with the parameter `cfg`. -/
def State.ofConfig (cfg : Config) : State := { State.reset with cfg := cfg }

/-- The launch of a decode: `dec_start` on `d_cmd`, the bytes and then `eos` on `byte_in` (70_reset R242). -/
def State.launchDecode (cfg : Config) (bytes : List Byte) : State :=
  let s := State.ofConfig cfg
  { s with dec := { s.dec with cmd := 1, byteIn := bytes.map (⟨.byte ·, 0⟩) ++ [⟨.eos, 0⟩] } }

/-- The launch of an encode: `enc_start` on `e_cmd`, the pixels on `pix_in` (70_reset R242). -/
def State.launchEncode (cfg : Config) (c : EncCommand) (pixels : List Color) : State :=
  let s := State.ofConfig cfg
  { s with enc := { s.enc with cmd := [c], pixIn := pixels.map (⟨·, 0⟩) } }

/-- Up to `n` steps of one engine. -/
def runAgent (a : Agent) : Nat → State → State
  | 0, s => s
  | n + 1, s =>
    match a.step s with
    | some (.next t) => runAgent a n t
    | _ => s

/-- The result DEC's phase reports; none while the operation goes on. -/
def Dec.result (d : Dec) : Option DecodeResult :=
  match d.phase with
  | .done => some (.ok d.width d.height d.channels d.colorspace d.pixOut d.ipos)
  | .fault => some (.error d.fault d.pixOut)
  | .idle => none
  | .header => none
  | .body => none

/-- The result ENC's phase reports; none while the operation goes on. -/
def Enc.result (x : Enc) : Option EncodeResult :=
  match x.phase with
  | .done => some (.ok x.byteOut)
  | .fault => some (.error x.fault.code)
  | .idle => none
  | .body => none

/-- `Decode(S)` (42_chunk_decoder R158). One step starts, one reads the header, and every chunk step takes a byte or ends
the operation, so `length(S) + 2` steps are enough. -/
def decodeStream (cfg : Config) (bytes : List Byte) : Option DecodeResult :=
  (runAgent .dec (bytes.length + 2) (State.launchDecode cfg bytes)).dec.result

/-- `Encode(w,h,ch,cs,P)` (43_chunk_encoder R188): one start step and one step a pixel (70_reset R245). It is none when too
few pixels were supplied, for then ENC waits (70_reset R246). -/
def encodeImage (cfg : Config) (w h : Word32) (ch cs : Byte) (pixels : List Color) : Option EncodeResult :=
  (runAgent .enc (pixels.length + 1) (State.launchEncode cfg ⟨w, h, ch, cs⟩ pixels)).enc.result

end Sys2Proof.Machine
end

