-- ==== Sys2Proof/Safety.lean ====
section
/-! DEFINITION. What counts as a safe state, and the shapes of effect that the statements name. -/

namespace Sys2Proof.Machine

/-! ### Invariants -/

/-- A slot that does not hold (0,0,0,0) holds a colour of its own hash (41_color_cache R135). -/
def Cache.Consistent (m : Cache) : Prop := ∀ i : CacheIndex, m.lookup i ≠ initCacheEntry → colorHash (m.lookup i) = i

/-- DEC past its header step: the latches agree with `target`, the limit and the channel rule hold (10_state R28), `ipos` is
within its bound (10_state R31), the cache is consistent (41_color_cache R135). -/
structure Dec.Latched (cfg : Config) (d : Dec) : Prop where
  target : d.target = pixelCount d.width d.height
  limit : d.target ≤ cfg.maxPixels
  channels : LegalChannels d.channels
  headerRead : headerBytes ≤ d.ipos
  bounded : d.ipos ≤ headerBytes + 5 * d.count
  cache : d.cache.Consistent

/-- DEC's invariant, phase by phase (10_state R22, R29, R31, R38). -/
def Dec.Inv (cfg : Config) (d : Dec) : Prop :=
  match d.phase with
  | .idle => True
  | .header => d.ipos = 0 ∧ d.count = 0 ∧ d.prev = initPrev ∧ d.cache = Cache.clear
  | .body => d.Latched cfg ∧ d.count < d.target
  | .done => d.Latched cfg ∧ d.count = d.target
  | .fault => (∃ e : ErrorKind, d.fault.code = e.code) ∧ d.fault.offset = d.ipos ∧ d.fault.pixels = d.count

/-- ENC past its start step (10_state R28, R32; 41_color_cache R135; 43_chunk_encoder R184). -/
structure Enc.Latched (cfg : Config) (x : Enc) : Prop where
  target : x.target = pixelCount x.width x.height
  limit : x.target ≤ cfg.maxPixels
  channels : LegalChannels x.channels
  opaqueAlpha : x.channels = 3 → x.prev.a = 255
  cache : x.cache.Consistent

/-- ENC's invariant, phase by phase: between steps the run is at most 61 (10_state R23), the bytes written stay within the
bound of 43_chunk_encoder R190 (a pending run counts one byte), no run is pending at the end (R182). -/
def Enc.Inv (cfg : Config) (x : Enc) : Prop :=
  match x.phase with
  | .idle => True
  | .body =>
    x.Latched cfg ∧ x.count < x.target ∧ x.run.toNat ≤ 61 ∧ x.run.toNat ≤ x.count
      ∧ x.opos + (if x.run = 0 then 0 else 1) ≤ headerBytes + 5 * x.count
  | .done => x.Latched cfg ∧ x.count = x.target ∧ x.run = 0 ∧ x.opos ≤ headerBytes + 5 * x.target + endMarkerBytes
  | .fault =>
    (x.fault.code = ErrorKind.unsupportedChannel.code ∨ x.fault.code = ErrorKind.dimensionLimit.code)
      ∧ x.fault.offset = 0 ∧ x.fault.pixels = 0

/-- The machine's invariant. -/
def State.Inv (s : State) : Prop := s.enc.Inv s.cfg ∧ s.dec.Inv s.cfg

/-! ### Launches the spec gives no meaning (70_reset R247, 93 U14; log 6) -/

/-- A start of DEC is refused: a command waits between operations and leftover input stands first (93 U14). -/
def Dec.LaunchRefused (d : Dec) : Prop := d.phase.takesStart = true ∧ 0 < d.cmd ∧ d.undrained = true

/-- A start of ENC is refused: a command waits between operations and leftover input stands first (93 U14). -/
def Enc.LaunchRefused (x : Enc) : Prop := x.phase.takesStart = true ∧ x.cmd ≠ [] ∧ x.undrained = true

/-! ### Shapes of effect -/

/-- Only DEC differs. -/
def State.OnlyDec (s t : State) : Prop :=
  t.enc = s.enc ∧ t.rst = s.rst ∧ t.cfg = s.cfg ∧ t.host = s.host ∧ t.turn = s.turn

/-- Only ENC differs. -/
def State.OnlyEnc (s t : State) : Prop :=
  t.dec = s.dec ∧ t.rst = s.rst ∧ t.cfg = s.cfg ∧ t.host = s.host ∧ t.turn = s.turn

/-- The registers and ports of DEC that no chunk writes. -/
structure Dec.ChunkFrame (d d' : Dec) : Prop where
  width : d'.width = d.width
  height : d'.height = d.height
  channels : d'.channels = d.channels
  colorspace : d'.colorspace = d.colorspace
  target : d'.target = d.target
  cmd : d'.cmd = d.cmd
  free : d'.free = d.free
  launches : d'.launches = d.launches

/-- How a chunk step that raises nothing ends: its `len` bytes are consumed, and the operation ends with `done` exactly when
`count` has reached `target` (42_chunk_decoder R143, R151). -/
structure Dec.ChunkEnd (len : Nat) (d d' : Dec) : Prop where
  ipos : d'.ipos = d.ipos + len
  byteIn : d'.byteIn = d.byteIn.drop len
  fault : d'.fault = d.fault
  phase : d'.phase = if d'.count = d.target then .done else .body
  stat : d'.stat = if d'.count = d.target then d.stat ++ [.done (d.ipos + len)] else d.stat

/-- One pixel emitted and stored by a chunk of `len` bytes (42_chunk_decoder R142, R143). -/
structure Dec.OnePixel (c : Color) (len : Nat) (d d' : Dec) : Prop where
  pixOut : d'.pixOut = d.pixOut ++ [c]
  prev : d'.prev = c
  count : d'.count = d.count + 1
  cache : ∀ i, d'.cache.lookup i = if i = colorHash c then c else d.cache.lookup i
  ending : d.ChunkEnd len d'
  frame : d.ChunkFrame d'

/-- A pixel waits for ENC, which is in BODY with pixels to consume and has precedence. -/
structure State.EncReady (s : State) (p : Marked Color) (rest : List (Marked Color)) : Prop where
  rst : s.rst = 0
  turn : s.turn = .enc
  phase : s.enc.phase = .body
  count : s.enc.count < s.enc.target
  pixIn : s.enc.pixIn = p :: rest

/-- The bytes of a pending run: one RUN chunk, or nothing (43_chunk_encoder R174). -/
def Enc.pendingRun (x : Enc) : List Byte :=
  if x.run.toNat = 0 then [] else [BitVec.ofNat 8 (0xC0 + (x.run.toNat - 1))]

/-- A pixel step of ENC for the pixel `c` that writes the bytes `chunks`, leaves `run` and `cache` as given, takes its pixel,
and ends the operation exactly at the last pixel, with the end marker after the chunks (43_chunk_encoder R172, R181,
R182). -/
structure Enc.PixelEffect (c : Color) (chunks : List Byte) (run : BitVec 6) (cache : Cache)
    (rest : List (Marked Color)) (x x' : Enc) : Prop where
  prev : x'.prev = c
  count : x'.count = x.count + 1
  pixIn : x'.pixIn = rest
  run : x'.run = run
  cache : ∀ i, x'.cache.lookup i = cache.lookup i
  byteOut : x'.byteOut
    = x.byteOut ++ chunks ++ (if x.count + 1 = x.target then [0, 0, 0, 0, 0, 0, 0, 1] else [])
  opos : x'.opos = x.opos + chunks.length + (if x.count + 1 = x.target then 8 else 0)
  phase : x'.phase = if x.count + 1 = x.target then .done else .body
  stat : x'.stat = if x.count + 1 = x.target then x.stat ++ [.done x'.opos] else x.stat
  width : x'.width = x.width
  height : x'.height = x.height
  channels : x'.channels = x.channels
  colorspace : x'.colorspace = x.colorspace
  target : x'.target = x.target
  fault : x'.fault = x.fault
  cmd : x'.cmd = x.cmd
  free : x'.free = x.free
  launches : x'.launches = x.launches

end Sys2Proof.Machine
end

