-- ==== Sys2Proof/Certificates/Slice0/Obligations.lean ====
section
/-! DEFINITION. The statements for the provers. Each docstring says which rules of spec/ it formalises. -/

open Sys2Proof Sys2Proof.Machine

/-! ### Encoding -/

/-- 30_encoding R92 to R97, 44_header_codec R200, R203: no bit of an encoding is dropped. Decoding the bytes of a
well-formed item, whatever follows them, gives the item and leaves what follows. -/
def Obligations.DecodeOfEncode : Prop :=
  ∀ (i : Instr) (rest : List Byte), i.WellFormed → decode i.region (encode i ++ rest) = .ok (i, rest)

/-- 30_encoding R98, R102: a chunk has one reading. Bytes that decode to a chunk are its encoding, and the chunk is well
formed. -/
def Obligations.EncodeOfDecodedChunk : Prop :=
  ∀ (bytes rest : List Byte) (i : Instr), decode .chunks bytes = .ok (i, rest) →
    i.WellFormed ∧ i.region = .chunks ∧ encode i ++ rest = bytes

/-- Words written out from 30_encoding R92 to R97 and 44_header_codec R200, R203. -/
def Obligations.SampleWordsDecode : Prop :=
  decode .chunks [0xFF, 0x10, 0x20, 0x30, 0x40] = .ok (.rgba 16 32 48 64, [])
  ∧ decode .chunks [0xFE, 0x10, 0x20, 0x30] = .ok (.rgb 16 32 48, [])
  ∧ decode .chunks [0xFD] = .ok (.run 62, [])
  ∧ decode .chunks [0xA5, 0xD5] = .ok (.luma 5 5 (-3), [])
  ∧ decode .chunks [0x74] = .ok (.diff 1 (-1) (-2), [])
  ∧ decode .chunks [0x32] = .ok (.index 50, [])
  ∧ decode .header [0x71, 0x6F, 0x69, 0x66, 0, 0, 1, 0, 0, 0, 0, 2, 4, 1] = .ok (.header 256 2 4 1, [])
  ∧ decode .trailer [0, 0, 0, 0, 0, 0, 0, 1] = .ok (.endMarker, [])

/-- 30_encoding R98: the type of a chunk from its opcode byte, first match wins. -/
def Obligations.DispatchOnOpcodeByte : Prop :=
  ∀ b : Byte,
    chunkKind b =
      if b.toNat = 255 then .rgba else if b.toNat = 254 then .rgb else if 192 ≤ b.toNat then .run
      else if 128 ≤ b.toNat then .luma else if 64 ≤ b.toNat then .diff else .index

/-- 30_encoding R90, R99, R102: the opcode byte alone gives the length, every opcode byte is a chunk once its bytes are
there, and fewer bytes than that decode to nothing. -/
def Obligations.EveryOpcodeByteDecodes : Prop :=
  ∀ (op : Byte) (rest : List Byte),
    (chunkLength op ≤ rest.length + 1 →
      ∃ i, decode .chunks (op :: rest) = .ok (i, (op :: rest).drop (chunkLength op)) ∧ i.length = chunkLength op)
    ∧ (rest.length + 1 < chunkLength op → decode .chunks (op :: rest) = .error .truncated)

/-- 40_byte_primitives R120, R121: `U32` and `BE32` are inverse to each other. -/
def Obligations.BigEndianInverse : Prop :=
  (∀ v : Word32, ∃ b0 b1 b2 b3, be32 v = [b0, b1, b2, b3] ∧ u32 b0 b1 b2 b3 = v
    ∧ b0.toNat = v.toNat / 2 ^ 24 ∧ b1.toNat = v.toNat / 2 ^ 16 % 2 ^ 8
    ∧ b2.toNat = v.toNat / 2 ^ 8 % 2 ^ 8 ∧ b3.toNat = v.toNat % 2 ^ 8)
  ∧ ∀ b0 b1 b2 b3 : Byte, be32 (u32 b0 b1 b2 b3) = [b0, b1, b2, b3]
    ∧ (u32 b0 b1 b2 b3).toNat = b0.toNat * 2 ^ 24 + b1.toNat * 2 ^ 16 + b2.toNat * 2 ^ 8 + b3.toNat

/-- 44_header_codec R205: the header round trip, for every size, both channel counts and every colourspace byte. -/
def Obligations.HeaderRoundTrip : Prop :=
  ∀ (w h : Word32) (ch cs : Byte), LegalChannels ch →
    decodeHeader (encodeHeader w h ch cs) = .ok (w, h, ch, cs)

/-- 44_header_codec R202: the magic is checked first, the channel count second, nothing else, and the fields are the two
big-endian words and the two bytes. -/
def Obligations.HeaderChecksInOrder : Prop :=
  ∀ bytes : List Byte, bytes.length = 14 →
    (bytes.take 4 ≠ [0x71, 0x6F, 0x69, 0x66] → decodeHeader bytes = .error .badMagic)
    ∧ (bytes.take 4 = [0x71, 0x6F, 0x69, 0x66] → bytes[12]? ≠ some 3 → bytes[12]? ≠ some 4 →
        decodeHeader bytes = .error .badChannels)
    ∧ (bytes.take 4 = [0x71, 0x6F, 0x69, 0x66] → (bytes[12]? = some 3 ∨ bytes[12]? = some 4) →
        ∃ w h ch cs, decodeHeader bytes = .ok (w, h, ch, cs) ∧ be32 w = (bytes.drop 4).take 4
          ∧ be32 h = (bytes.drop 8).take 4 ∧ bytes[12]? = some ch ∧ bytes[13]? = some cs)

/-! ### Arithmetic -/

/-- 40_byte_primitives R122, R123: `wrap8` is the floor modulo 256, and so is DOC's formula with a truncating remainder. -/
def Obligations.WrapIsFloorModulo : Prop :=
  ∀ v : Int, ((wrap8 v).toNat : Int) = v % 256 ∧ (v.tmod 256 + 256).tmod 256 = v % 256

/-- 41_color_cache R130, R131: the hash is the weighted sum modulo 64, it depends only on the low six bits of each channel,
and the sum is at most 6630. -/
def Obligations.HashOfLowBits : Prop :=
  ∀ c : Color,
    (colorHash c).toNat = (c.r.toNat * 3 + c.g.toNat * 5 + c.b.toNat * 7 + c.a.toNat * 11) % 64
    ∧ hashSum c ≤ 6630
    ∧ (colorHash c).toNat
      = (3 * (c.r.toNat % 64) + 5 * (c.g.toNat % 64) + 7 * (c.b.toNat % 64) + 11 * (c.a.toNat % 64)) % 64

/-! ### The cache -/

/-- 41_color_cache R130, R133, R134: `store` writes its colour in the slot of number `(3r + 5g + 7b + 11a) mod 64` and in no
other slot; `clear` makes every slot (0,0,0,0). -/
def Obligations.StoreWritesItsHashSlot : Prop :=
  (∀ (m : Cache) (c : Color) (j : Nat) (hj : j < 64),
    (m.store c)[j] = if j = (c.r.toNat * 3 + c.g.toNat * 5 + c.b.toNat * 7 + c.a.toNat * 11) % 64 then c else m[j])
  ∧ ∀ (j : Nat) (hj : j < 64), Cache.clear[j] = ⟨0, 0, 0, 0⟩

/-- 41_color_cache R135: after any sequence of stores from a cleared cache, a slot holds the colour last stored with its
hash, or (0,0,0,0). -/
def Obligations.SlotHoldsLastStored : Prop :=
  ∀ (stored : List Color) (i : CacheIndex),
    (stored.foldl Cache.store Cache.clear).lookup i
      = ((stored.filter fun c => colorHash c = i).getLast?).getD ⟨0, 0, 0, 0⟩

/-! ### The input stream -/

/-- 20_memory R62: a read answers `n` bytes exactly when the next `n` tokens are bytes; it raises exactly when an `eos`
stands before the last of them, behind bytes only; otherwise it waits. -/
def Obligations.MemReadOutcomes : Prop :=
  ∀ (n : Nat) (port : List InToken),
    (∀ l, memRead n port = .bytes l ↔ l.length = n ∧ port.take n = l.map .byte)
    ∧ (memRead n port = .eos ↔ InToken.eos ∈ port.take n)
    ∧ (memRead n port = .wait ↔ port.length < n ∧ InToken.eos ∉ port)

/-! ### The chunks as DEC executes them -/

/-- 42_chunk_decoder R144: RGBA emits the four channels of the chunk and stores the pixel. -/
def Obligations.RgbaEmitsItsColor : Prop :=
  ∀ (s : State) (r g b a : Byte), s.dec.phase = .body → s.dec.count < s.dec.target →
    ∃ t, exec (.rgba r g b a) s = .next t ∧ s.OnlyDec t ∧ s.dec.OnePixel ⟨r, g, b, a⟩ 5 t.dec

/-- 42_chunk_decoder R145: RGB emits three channels of the chunk with the alpha of `prev` and stores the pixel. -/
def Obligations.RgbInheritsAlpha : Prop :=
  ∀ (s : State) (r g b : Byte), s.dec.phase = .body → s.dec.count < s.dec.target →
    ∃ t, exec (.rgb r g b) s = .next t ∧ s.OnlyDec t ∧ s.dec.OnePixel ⟨r, g, b, s.dec.prev.a⟩ 4 t.dec

/-- 42_chunk_decoder R147: LUMA adds the green delta, and the red and blue deltas relative to it, wrapping modulo 256. -/
def Obligations.LumaMovesChannels : Prop :=
  ∀ (s : State) (ddr dg ddb : Int), s.dec.phase = .body → s.dec.count < s.dec.target →
    ∃ t c, exec (.luma ddr dg ddb) s = .next t ∧ s.OnlyDec t ∧ s.dec.OnePixel c 2 t.dec
      ∧ (c.r.toNat : Int) = ((s.dec.prev.r.toNat : Int) + (ddr + dg)) % 256
      ∧ (c.g.toNat : Int) = ((s.dec.prev.g.toNat : Int) + dg) % 256
      ∧ (c.b.toNat : Int) = ((s.dec.prev.b.toNat : Int) + (ddb + dg)) % 256
      ∧ c.a = s.dec.prev.a

/-- 42_chunk_decoder R148: DIFF adds its three deltas, wrapping modulo 256, alpha unchanged. -/
def Obligations.DiffMovesChannels : Prop :=
  ∀ (s : State) (dr dg db : Int), s.dec.phase = .body → s.dec.count < s.dec.target →
    ∃ t c, exec (.diff dr dg db) s = .next t ∧ s.OnlyDec t ∧ s.dec.OnePixel c 1 t.dec
      ∧ (c.r.toNat : Int) = ((s.dec.prev.r.toNat : Int) + dr) % 256
      ∧ (c.g.toNat : Int) = ((s.dec.prev.g.toNat : Int) + dg) % 256
      ∧ (c.b.toNat : Int) = ((s.dec.prev.b.toNat : Int) + db) % 256
      ∧ c.a = s.dec.prev.a

/-- 42_chunk_decoder R149: INDEX emits the colour of its slot and stores it at that colour's own hash. -/
def Obligations.IndexEmitsItsSlot : Prop :=
  ∀ (s : State) (k : CacheIndex), s.dec.phase = .body → s.dec.count < s.dec.target →
    ∃ t, exec (.index k) s = .next t ∧ s.OnlyDec t ∧ s.dec.OnePixel (s.dec.cache.lookup k) 1 t.dec

/-- 42_chunk_decoder R149 (a), (b): in a consistent cache an INDEX of a slot that holds a colour other than (0,0,0,0)
changes no slot; an INDEX of a slot that holds (0,0,0,0) empties slot 0 and changes no other. -/
def Obligations.IndexStoreIsVisibleOnlyInSlotZero : Prop :=
  ∀ (s t : State) (k : CacheIndex), s.dec.phase = .body → s.dec.count < s.dec.target → s.dec.cache.Consistent →
    exec (.index k) s = .next t →
    (s.dec.cache.lookup k ≠ ⟨0, 0, 0, 0⟩ → ∀ i, t.dec.cache.lookup i = s.dec.cache.lookup i)
    ∧ (s.dec.cache.lookup k = ⟨0, 0, 0, 0⟩ →
        ∀ i, t.dec.cache.lookup i = if i = 0 then ⟨0, 0, 0, 0⟩ else s.dec.cache.lookup i)

/-- 42_chunk_decoder R146, R150: a RUN that fits emits `prev` as often as it says, keeps `prev`, and writes no cache slot. -/
def Obligations.RunRepeatsPrevious : Prop :=
  ∀ (s : State) (n : Nat), Instr.WellFormed (.run n) → s.dec.phase = .body → s.dec.count + n ≤ s.dec.target →
    ∃ t, exec (.run n) s = .next t ∧ s.OnlyDec t
      ∧ t.dec.pixOut = s.dec.pixOut ++ List.replicate n s.dec.prev
      ∧ t.dec.prev = s.dec.prev ∧ t.dec.cache = s.dec.cache ∧ t.dec.count = s.dec.count + n
      ∧ s.dec.ChunkEnd 1 t.dec ∧ s.dec.ChunkFrame t.dec

/-- 60_exceptions R215, R216, R218; 42_chunk_decoder R153: a RUN that passes `target` emits the pixels that fit, then raises
OverrunError at its opcode byte; its byte is not consumed, `prev` and the cache are unchanged. -/
def Obligations.RunPastTargetOverruns : Prop :=
  ∀ (s : State) (n : Nat), s.dec.phase = .body → s.dec.count < s.dec.target → s.dec.target < s.dec.count + n →
    ∃ t, exec (.run n) s = .next t ∧ s.OnlyDec t
      ∧ t.dec.pixOut = s.dec.pixOut ++ List.replicate (s.dec.target - s.dec.count) s.dec.prev
      ∧ t.dec.count = s.dec.target ∧ t.dec.phase = .fault ∧ t.dec.fault = ⟨5, s.dec.ipos, s.dec.target⟩
      ∧ t.dec.stat = s.dec.stat ++ [.fault ⟨5, s.dec.ipos, s.dec.target⟩]
      ∧ t.dec.prev = s.dec.prev ∧ t.dec.cache = s.dec.cache ∧ t.dec.ipos = s.dec.ipos ∧ t.dec.byteIn = s.dec.byteIn
      ∧ s.dec.ChunkFrame t.dec

/-- 10_state R20, R25, R31, R35 and 42_chunk_decoder R142: whatever a chunk does, a fault entry included, it leaves ENC,
the ports of ENC, the header latches, `target` and the command port alone; it only appends to `pix_out` and `d_stat`; it
never moves `ipos` or `count` back; and it writes no cache slot but the one of the hash of the `prev` it leaves. -/
def Obligations.ChunkFrame : Prop :=
  ∀ (i : Instr) (s t : State), i.region = .chunks → exec i s = .next t →
    s.OnlyDec t ∧ s.dec.ChunkFrame t.dec
    ∧ s.dec.pixOut <+: t.dec.pixOut ∧ s.dec.stat <+: t.dec.stat
    ∧ s.dec.ipos ≤ t.dec.ipos ∧ s.dec.count ≤ t.dec.count
    ∧ ∀ k, k ≠ colorHash t.dec.prev → t.dec.cache.lookup k = s.dec.cache.lookup k

/-- 10_state R46: a chunk executes in BODY only and the header in HEADER only. In any other phase nothing happens (the
model's reading of a step that is not enabled, log 9). -/
def Obligations.ItemsWaitOutsideTheirPhase : Prop :=
  ∀ (s : State),
    (∀ i : Instr, i.region = .chunks → s.dec.phase ≠ .body → exec i s = .next s)
    ∧ ∀ (w h : Word32) (ch cs : Byte), s.dec.phase ≠ .header → exec (.header w h ch cs) s = .next s

/-! ### The records -/

/-- 42_chunk_decoder R141, R154; 10_state R47: a header with a legal channel count and a pixel count within the limit is
latched and reported, its 14 bytes are consumed, and the operation goes on in BODY, or ends with `done(14)` when it has no
pixel. -/
def Obligations.HeaderAccepted : Prop :=
  ∀ (s : State) (w h : Word32) (ch cs : Byte), s.dec.phase = .header → LegalChannels ch →
    w.toNat * h.toNat ≤ s.cfg.maxPixels →
    ∃ t, exec (.header w h ch cs) s = .next t ∧ s.OnlyDec t
      ∧ t.dec.width = w ∧ t.dec.height = h ∧ t.dec.channels = ch ∧ t.dec.colorspace = cs
      ∧ t.dec.target = w.toNat * h.toNat ∧ t.dec.ipos = 14 ∧ t.dec.byteIn = s.dec.byteIn.drop 14
      ∧ t.dec.phase = (if w.toNat * h.toNat = 0 then .done else .body)
      ∧ t.dec.stat = s.dec.stat ++ [.hdr w h ch cs] ++ (if w.toNat * h.toNat = 0 then [.done 14] else [])
      ∧ t.dec.prev = s.dec.prev ∧ t.dec.cache = s.dec.cache ∧ t.dec.count = s.dec.count
      ∧ t.dec.pixOut = s.dec.pixOut ∧ t.dec.fault = s.dec.fault ∧ t.dec.cmd = s.dec.cmd ∧ t.dec.free = s.dec.free

/-- 60_exceptions R212, R213, R216, R219; 42_chunk_decoder R141: a header with another channel count raises
UnsupportedChannelError whatever its size, one over the limit DimensionLimitError; nothing is consumed or latched, no `hdr`
is put, and the state is the old one but for phase, record and status. -/
def Obligations.HeaderRejected : Prop :=
  ∀ (s : State) (w h : Word32) (ch cs : Byte), s.dec.phase = .header →
    (¬ LegalChannels ch →
      exec (.header w h ch cs) s = .next { s with dec := { s.dec with
        phase := .fault, fault := ⟨2, 0, s.dec.count⟩, stat := s.dec.stat ++ [.fault ⟨2, 0, s.dec.count⟩] } })
    ∧ (LegalChannels ch → s.cfg.maxPixels < w.toNat * h.toNat →
      exec (.header w h ch cs) s = .next { s with dec := { s.dec with
        phase := .fault, fault := ⟨3, 0, s.dec.count⟩, stat := s.dec.stat ++ [.fault ⟨3, 0, s.dec.count⟩] } })

/-- The effect of 43_chunk_encoder R182, 44_header_codec R203, 10_state R47 and 42_chunk_decoder R157. That END runs by itself,
in BODY with every pixel consumed, is the model's choice (log 10): in the spec it is part of the last pixel's step, and no
run stops between the two. There END is appended after ENC's output, ENC enters DONE and reports its length; every other
register and all of DEC are unchanged. -/
def Obligations.EndMarkerEndsTheEncode : Prop :=
  ∀ (s : State), s.enc.phase = .body → s.enc.count = s.enc.target →
    exec .endMarker s = .next { s with enc := { s.enc with
      byteOut := s.enc.byteOut ++ [0, 0, 0, 0, 0, 0, 0, 1]
      opos := s.enc.opos + 8
      phase := .done
      stat := s.enc.stat ++ [.done (s.enc.opos + 8)] } }

/-- Log 10 (the model's choice, no rule of the spec): at any other point END changes nothing. -/
def Obligations.EndMarkerElsewhereDoesNothing : Prop :=
  ∀ (s : State), (s.enc.phase ≠ .body ∨ s.enc.count ≠ s.enc.target) → exec .endMarker s = .next s

/-! ### Steps of DEC -/

/-- A step runs the decoded chunk: with DEC in BODY and with precedence, and its next chunk complete on `byte_in`, the step
is exactly the chunk's meaning (the meaning itself consumes the bytes and moves `ipos`). -/
def Obligations.StepRunsTheDecodedChunk : Prop :=
  ∀ (s : State) (i : Instr) (bytes rest : List Byte) (more : List InToken),
    s.rst = 0 → s.turn = .dec → s.dec.phase = .body → s.dec.stream = bytes.map .byte ++ more →
    decode .chunks bytes = .ok (i, rest) → step s = exec i s

/-- A step runs the decoded header: with DEC in HEADER and with precedence, and 14 bytes on `byte_in` that decode to a
header, the step is exactly the header's meaning. -/
def Obligations.StepRunsTheDecodedHeader : Prop :=
  ∀ (s : State) (i : Instr) (bytes rest : List Byte) (more : List InToken),
    s.rst = 0 → s.turn = .dec → s.dec.phase = .header → s.dec.stream = bytes.map .byte ++ more →
    decode .header bytes = .ok (i, rest) → step s = exec i s

/-- 60_exceptions R211, R214 (a), R216, R219: in the header step an `eos` before 14 bytes raises TruncatedStreamError
whatever the bytes are, and 14 bytes without the magic raise FormatError whatever follows; nothing else changes. -/
def Obligations.HeaderStepFaults : Prop :=
  ∀ (s : State) (bytes : List Byte) (more : List InToken),
    s.rst = 0 → s.turn = .dec → s.dec.phase = .header →
    (bytes.length < 14 → s.dec.stream = bytes.map .byte ++ .eos :: more →
      step s = .next { s with dec := { s.dec with
        phase := .fault, fault := ⟨4, 0, s.dec.count⟩, stat := s.dec.stat ++ [.fault ⟨4, 0, s.dec.count⟩] } })
    ∧ (bytes.length = 14 → s.dec.stream = bytes.map .byte ++ more → bytes.take 4 ≠ [0x71, 0x6F, 0x69, 0x66] →
      step s = .next { s with dec := { s.dec with
        phase := .fault, fault := ⟨1, 0, s.dec.count⟩, stat := s.dec.stat ++ [.fault ⟨1, 0, s.dec.count⟩] } })

/-- 42_chunk_decoder R152; 60_exceptions R214 (b), (c), R216: an `eos` at the opcode position or inside a payload raises
TruncatedStreamError at the opcode position; no pixel, no cache write, no byte consumed. -/
def Obligations.ChunkStepTruncated : Prop :=
  ∀ (s : State) (bytes : List Byte) (more : List InToken),
    s.rst = 0 → s.turn = .dec → s.dec.phase = .body → s.dec.stream = bytes.map .byte ++ .eos :: more →
    (∀ op tail, bytes = op :: tail → bytes.length < chunkLength op) →
      step s = .next { s with dec := { s.dec with
        phase := .fault
        fault := ⟨4, s.dec.ipos, s.dec.count⟩
        stat := s.dec.stat ++ [.fault ⟨4, s.dec.ipos, s.dec.count⟩] } }

/-- 10_state R46, 20_memory R62, 60_exceptions R214: bytes that have not arrived, with no `eos`, leave DEC waiting: its step
is not enabled. (`EnginesWaitForTokens` has the other waits.) -/
def Obligations.DecWaitsForBytes : Prop :=
  ∀ (s : State) (bytes : List Byte), s.dec.stream = bytes.map .byte →
    (s.dec.phase = .header → bytes.length < 14 → decStep s = none)
    ∧ (s.dec.phase = .body → (∀ op tail, bytes = op :: tail → bytes.length < chunkLength op) → decStep s = none)

/-- 10_state R22, R42, R43, R46; 60_exceptions R221; 70_reset R246: in IDLE, DONE and FAULT an engine without a start command
has no step; ENC in BODY with pixels to consume and none on its port has none; and where no engine has a step and the host
has nothing it can do, the machine waits: it answers the same state. -/
def Obligations.EnginesWaitForTokens : Prop :=
  ∀ (s : State),
    ((s.dec.phase = .idle ∨ s.dec.phase = .done ∨ s.dec.phase = .fault) → s.dec.cmd = 0 → decStep s = none)
    ∧ ((s.enc.phase = .idle ∨ s.enc.phase = .done ∨ s.enc.phase = .fault) → s.enc.cmd = [] → encStep s = none)
    ∧ (s.enc.phase = .body → s.enc.count < s.enc.target → s.enc.pixIn = [] → encStep s = none)
    ∧ (s.rst = 0 → decStep s = none → encStep s = none → hostStep s = none → step s = .next s)

/-- 70_reset R247, 93 U14: an engine's start is refused, by name, exactly when a command waits between operations and the
oldest token on the input port is left over from an operation before it. Whose a token is, the model says by the mark the
host puts it with (log 6). No other start is refused: not on an empty port, not with data of the new operation put before its
command (R242), not with tokens put for a later queued command (R249). -/
def Obligations.UndrainedLaunchIsRefused : Prop :=
  ∀ (s : State),
    (decStep s = some (.refused (.undrainedLaunch .dec)) ↔
      s.dec.phase.takesStart = true ∧ 0 < s.dec.cmd ∧ ∃ t rest, s.dec.byteIn = t :: rest ∧ t.op < s.dec.launches)
    ∧ (encStep s = some (.refused (.undrainedLaunch .enc)) ↔
      s.enc.phase.takesStart = true ∧ s.enc.cmd ≠ [] ∧ ∃ t rest, s.enc.pixIn = t :: rest ∧ t.op < s.enc.launches)
    ∧ ∀ r, s.rst = 0 → s.turn.step s = some (.refused r) → step s = .refused r

/-- 10_state R38, R43: the DEC start step takes one `dec_start`, re-initialises `prev`, every cache slot, `count` and
`ipos`, enters HEADER, and touches no other port. No leftover input stands first on its port (70_reset R247);
data of this operation or of a later one may (R242, R249). -/
def Obligations.DecStartInitialises : Prop :=
  ∀ (s : State), s.rst = 0 → s.turn = .dec → s.dec.phase.takesStart = true → 0 < s.dec.cmd →
    s.dec.undrained = false →
    ∃ t, step s = .next t ∧ s.OnlyDec t ∧ t.dec.phase = .header ∧ t.dec.prev = ⟨0, 0, 0, 255⟩
      ∧ (∀ i, t.dec.cache.lookup i = ⟨0, 0, 0, 0⟩) ∧ t.dec.count = 0 ∧ t.dec.ipos = 0
      ∧ t.dec.cmd + 1 = s.dec.cmd ∧ t.dec.byteIn = s.dec.byteIn ∧ t.dec.pixOut = s.dec.pixOut ∧ t.dec.stat = s.dec.stat

/-- 10_state R21, 70_reset R241, 60_exceptions R222: nothing of an earlier operation survives a start but tokens left on the
input port (R247). Two DECs in any accepting phases with the same ports, and with the same counts of the model's own (starts
taken, log 6; free values, log 5), take the same start step. -/
def Obligations.DecStartForgetsThePast : Prop :=
  ∀ (s : State) (d d' : Dec), d.phase.takesStart = true → d'.phase.takesStart = true →
    d'.cmd = d.cmd → d'.byteIn = d.byteIn → d'.pixOut = d.pixOut → d'.stat = d.stat →
    d'.launches = d.launches → d'.free = d.free →
    decStep { s with dec := d' } = decStep { s with dec := d }

/-- 10_state R42, R43: while an engine is busy its start command waits on the port. -/
def Obligations.BusyEngineLeavesItsCommand : Prop :=
  ∀ (s t : State),
    (s.dec.phase.takesStart = false → decStep s = some (.next t) → t.dec.cmd = s.dec.cmd)
    ∧ (s.enc.phase.takesStart = false → encStep s = some (.next t) → t.enc.cmd = s.enc.cmd)

/-! ### Steps of ENC -/

/-- 43_chunk_encoder R171, R185; 10_state R38, R42: a start command with a legal channel count and a pixel count within the
limit is taken, everything is initialised and latched, the header is written, and ENC goes to BODY, or writes the end marker
and is DONE when the image has no pixel; then pixels of a later queued command may already stand on `pix_in` (70_reset R249), and
stay there. -/
def Obligations.EncStartAccepted : Prop :=
  ∀ (s : State) (c : EncCommand) (rest : List EncCommand), s.rst = 0 → s.turn = .enc →
    s.enc.phase.takesStart = true → s.enc.cmd = c :: rest → s.enc.undrained = false → LegalChannels c.channels →
    c.width.toNat * c.height.toNat ≤ s.cfg.maxPixels →
    ∃ t, step s = .next t ∧ s.OnlyEnc t
      ∧ t.enc.prev = ⟨0, 0, 0, 255⟩ ∧ (∀ i, t.enc.cache.lookup i = ⟨0, 0, 0, 0⟩) ∧ t.enc.run = 0 ∧ t.enc.count = 0
      ∧ t.enc.width = c.width ∧ t.enc.height = c.height ∧ t.enc.channels = c.channels
      ∧ t.enc.colorspace = c.colorspace ∧ t.enc.target = c.width.toNat * c.height.toNat ∧ t.enc.cmd = rest
      ∧ t.enc.pixIn = s.enc.pixIn
      ∧ t.enc.byteOut = s.enc.byteOut
          ++ [0x71, 0x6F, 0x69, 0x66] ++ be32 c.width ++ be32 c.height ++ [c.channels, c.colorspace]
          ++ (if c.width.toNat * c.height.toNat = 0 then [0, 0, 0, 0, 0, 0, 0, 1] else [])
      ∧ t.enc.opos = (if c.width.toNat * c.height.toNat = 0 then 22 else 14)
      ∧ t.enc.phase = (if c.width.toNat * c.height.toNat = 0 then .done else .body)
      ∧ t.enc.stat = (if c.width.toNat * c.height.toNat = 0 then s.enc.stat ++ [.done 22] else s.enc.stat)

/-- 43_chunk_encoder R171; 10_state R38; 60_exceptions R212, R213, R219, R225: a start command with another channel count
raises UnsupportedChannelError whatever its size, one over the limit DimensionLimitError; no byte is written and no pixel
taken; prev, the cache, run, count and opos are initialised. That width, height, channels, colorspace and target then hold
the rejected command's values is the model's choice between R38 and R171's pseudocode (log 7, DEDUCED). -/
def Obligations.EncStartRejected : Prop :=
  ∀ (s : State) (c : EncCommand) (rest : List EncCommand), s.rst = 0 → s.turn = .enc →
    s.enc.phase.takesStart = true → s.enc.cmd = c :: rest → s.enc.undrained = false →
    (¬ LegalChannels c.channels ∨ s.cfg.maxPixels < c.width.toNat * c.height.toNat) →
    ∃ t code, step s = .next t ∧ s.OnlyEnc t
      ∧ code = (if ¬ LegalChannels c.channels then 2 else 3)
      ∧ t.enc.phase = .fault ∧ t.enc.fault = ⟨code, 0, 0⟩ ∧ t.enc.stat = s.enc.stat ++ [.fault ⟨code, 0, 0⟩]
      ∧ t.enc.byteOut = s.enc.byteOut ∧ t.enc.pixIn = s.enc.pixIn
      ∧ t.enc.prev = ⟨0, 0, 0, 255⟩ ∧ (∀ i, t.enc.cache.lookup i = ⟨0, 0, 0, 0⟩) ∧ t.enc.run = 0 ∧ t.enc.count = 0
      ∧ t.enc.opos = 0 ∧ t.enc.width = c.width ∧ t.enc.height = c.height ∧ t.enc.channels = c.channels
      ∧ t.enc.colorspace = c.colorspace ∧ t.enc.target = c.width.toNat * c.height.toNat

/-- 43_chunk_encoder R173: a pixel equal to `prev` that neither makes the run 62 nor is the last only lengthens the run: no
byte is written, no slot changes. -/
def Obligations.EqualPixelLengthensRun : Prop :=
  ∀ (s : State) (p : Marked Color) (rest : List (Marked Color)), s.EncReady p rest →
    forceAlpha s.enc.channels p.token = s.enc.prev → s.enc.run.toNat < 61 → s.enc.count + 1 < s.enc.target →
    ∃ t, step s = .next t ∧ s.OnlyEnc t
      ∧ s.enc.PixelEffect s.enc.prev [] (s.enc.run + 1) s.enc.cache rest t.enc

/-- 43_chunk_encoder R173, R182: a pixel equal to `prev` that makes the run 62 or is the last flushes one RUN chunk of the
run's length and clears the run; no slot changes. -/
def Obligations.FullOrLastRunIsFlushed : Prop :=
  ∀ (s : State) (p : Marked Color) (rest : List (Marked Color)), s.EncReady p rest →
    forceAlpha s.enc.channels p.token = s.enc.prev → s.enc.run.toNat ≤ 61 →
    (s.enc.run.toNat = 61 ∨ s.enc.count + 1 = s.enc.target) →
    ∃ t, step s = .next t ∧ s.OnlyEnc t
      ∧ s.enc.PixelEffect s.enc.prev [BitVec.ofNat 8 (0xC0 + s.enc.run.toNat)] 0 s.enc.cache rest t.enc

/-- 43_chunk_encoder R174, R175: a pixel other than `prev` that its slot holds is written as INDEX, after a pending run; no
slot changes. -/
def Obligations.HitIsWrittenAsIndex : Prop :=
  ∀ (s : State) (p : Marked Color) (c : Color) (rest : List (Marked Color)), s.EncReady p rest →
    c = forceAlpha s.enc.channels p.token →
    c ≠ s.enc.prev → s.enc.cache.lookup (colorHash c) = c →
    ∃ t, step s = .next t ∧ s.OnlyEnc t
      ∧ s.enc.PixelEffect c (s.enc.pendingRun ++ [BitVec.ofNat 8 (colorHash c).toNat]) 0 s.enc.cache rest t.enc

/-- 43_chunk_encoder R176, R177, R186: on a miss with equal alpha and all three exact deltas in [-2,1], the pixel is stored
and written as DIFF, after a pending run. -/
def Obligations.SmallDeltaIsWrittenAsDiff : Prop :=
  ∀ (s : State) (p : Marked Color) (c : Color) (rest : List (Marked Color)) (dr dg db : Int), s.EncReady p rest →
    c = forceAlpha s.enc.channels p.token → c ≠ s.enc.prev → s.enc.cache.lookup (colorHash c) ≠ c →
    c.a = s.enc.prev.a → dr = (c.r.toNat : Int) - s.enc.prev.r.toNat → dg = (c.g.toNat : Int) - s.enc.prev.g.toNat →
    db = (c.b.toNat : Int) - s.enc.prev.b.toNat → FitsDiff dr dg db →
    ∃ t, step s = .next t ∧ s.OnlyEnc t
      ∧ s.enc.PixelEffect c
          (s.enc.pendingRun ++ [BitVec.ofNat 8 (0x40 + (dr + 2).toNat * 16 + (dg + 2).toNat * 4 + (db + 2).toNat)])
          0 (s.enc.cache.store c) rest t.enc

/-- 43_chunk_encoder R176, R178, R186: on a miss with equal alpha where DIFF does not fit and LUMA does, the pixel is stored
and written as LUMA, after a pending run. -/
def Obligations.MediumDeltaIsWrittenAsLuma : Prop :=
  ∀ (s : State) (p : Marked Color) (c : Color) (rest : List (Marked Color)) (dr dg db : Int), s.EncReady p rest →
    c = forceAlpha s.enc.channels p.token → c ≠ s.enc.prev → s.enc.cache.lookup (colorHash c) ≠ c →
    c.a = s.enc.prev.a → dr = (c.r.toNat : Int) - s.enc.prev.r.toNat → dg = (c.g.toNat : Int) - s.enc.prev.g.toNat →
    db = (c.b.toNat : Int) - s.enc.prev.b.toNat → ¬ FitsDiff dr dg db → FitsLuma (dr - dg) dg (db - dg) →
    ∃ t, step s = .next t ∧ s.OnlyEnc t
      ∧ s.enc.PixelEffect c
          (s.enc.pendingRun
            ++ [BitVec.ofNat 8 (0x80 + (dg + 32).toNat),
                BitVec.ofNat 8 ((dr - dg + 8).toNat * 16 + (db - dg + 8).toNat)])
          0 (s.enc.cache.store c) rest t.enc

/-- 43_chunk_encoder R176, R179, R180: on a miss, with equal alpha and neither DIFF nor LUMA fitting the pixel is stored and
written as RGB, with another alpha as RGBA; after a pending run. -/
def Obligations.OtherPixelsAreWrittenRaw : Prop :=
  ∀ (s : State) (p : Marked Color) (c : Color) (rest : List (Marked Color)) (dr dg db : Int), s.EncReady p rest →
    c = forceAlpha s.enc.channels p.token → c ≠ s.enc.prev → s.enc.cache.lookup (colorHash c) ≠ c →
    dr = (c.r.toNat : Int) - s.enc.prev.r.toNat → dg = (c.g.toNat : Int) - s.enc.prev.g.toNat →
    db = (c.b.toNat : Int) - s.enc.prev.b.toNat →
    (c.a = s.enc.prev.a → ¬ FitsDiff dr dg db ∧ ¬ FitsLuma (dr - dg) dg (db - dg)) →
    ∃ t, step s = .next t ∧ s.OnlyEnc t
      ∧ s.enc.PixelEffect c
          (s.enc.pendingRun
            ++ (if c.a = s.enc.prev.a then [0xFE, c.r, c.g, c.b] else [0xFF, c.r, c.g, c.b, c.a]))
          0 (s.enc.cache.store c) rest t.enc

/-- 43_chunk_encoder R184: for a 3-channel image whose `prev` is opaque, ENC never chooses RGBA, and chooses INDEX only for
an opaque colour. -/
def Obligations.ThreeChannelsStayOpaque : Prop :=
  ∀ (m : Cache) (prev p : Color), prev.a = 255 →
    (forceAlpha 3 p).a = 255
    ∧ (∀ r g b a, chooseChunk m prev (forceAlpha 3 p) ≠ .rgba r g b a)
    ∧ ∀ k, chooseChunk m prev (forceAlpha 3 p) = .index k → (m.lookup k).a = 255

/-! ### The phases -/

/-- 10_state R22, R46, R47: the phases move along the rows of R22's table and no other way, in every state that meets the
invariant: an engine's step by the start, header, pixel and chunk rows, with the `fault` token in the rows that raise; a
reset token to IDLE; the host's actions not at all. That a waiting reset token is taken by the very next step, whatever else
is enabled, so that any next state then has both phases IDLE, is the model's choice (log 4). -/
def Obligations.PhasesMoveAlongTheTable : Prop :=
  ∀ (s t : State), s.Inv →
    (encStep s = some (.next t) →
      (s.enc.phase.takesStart = true
        ∧ ((t.enc.phase = .body ∧ 0 < t.enc.target) ∨ (t.enc.phase = .done ∧ t.enc.target = 0)
          ∨ (t.enc.phase = .fault ∧ t.enc.stat = s.enc.stat ++ [.fault t.enc.fault])))
      ∨ (s.enc.phase = .body
        ∧ ((t.enc.phase = .body ∧ t.enc.count < t.enc.target)
          ∨ (t.enc.phase = .done ∧ t.enc.count = t.enc.target))))
    ∧ (decStep s = some (.next t) →
      (s.dec.phase.takesStart = true ∧ t.dec.phase = .header)
      ∨ (s.dec.phase = .header
        ∧ ((t.dec.phase = .body ∧ 0 < t.dec.target) ∨ (t.dec.phase = .done ∧ t.dec.target = 0)
          ∨ (t.dec.phase = .fault ∧ t.dec.stat = s.dec.stat ++ [.fault t.dec.fault])))
      ∨ (s.dec.phase = .body
        ∧ ((t.dec.phase = .body ∧ t.dec.count < t.dec.target) ∨ (t.dec.phase = .done ∧ t.dec.count = t.dec.target)
          ∨ (t.dec.phase = .fault ∧ t.dec.stat = s.dec.stat ++ [.fault t.dec.fault]))))
    ∧ (0 < s.rst → step s = .next t → t.enc.phase = .idle ∧ t.dec.phase = .idle)
    ∧ (hostStep s = some t → t.enc.phase = s.enc.phase ∧ t.dec.phase = s.dec.phase)

/-! ### Reset, host and scheduling -/

/-- The effect of 10_state R37, R41 and 70_reset R240: both phases become IDLE and the eight other ports are emptied, whatever
the engines were doing. That a waiting token is taken by the very next step, and that the precedence and the host's own list
stay, are the model's choices (logs 4 and 3). -/
def Obligations.ResetTokenIdlesBothEngines : Prop :=
  ∀ (s : State), 0 < s.rst →
    ∃ t, step s = .next t ∧ t.rst + 1 = s.rst ∧ t.enc.phase = .idle ∧ t.dec.phase = .idle
      ∧ t.enc.cmd = [] ∧ t.enc.pixIn = [] ∧ t.enc.byteOut = [] ∧ t.enc.stat = []
      ∧ t.dec.cmd = 0 ∧ t.dec.byteIn = [] ∧ t.dec.pixOut = [] ∧ t.dec.stat = []
      ∧ t.cfg = s.cfg ∧ t.host = s.host ∧ t.turn = s.turn

/-- 10_state R37, R41; 70_reset R240: after reset both phases are IDLE and all nine ports are empty. -/
def Obligations.ResetStateIsIdle : Prop :=
  State.reset.enc.phase = .idle ∧ State.reset.dec.phase = .idle ∧ State.reset.rst = 0
    ∧ State.reset.enc.cmd = [] ∧ State.reset.enc.pixIn = [] ∧ State.reset.enc.byteOut = [] ∧ State.reset.enc.stat = []
    ∧ State.reset.dec.cmd = 0 ∧ State.reset.dec.byteIn = [] ∧ State.reset.dec.pixOut = [] ∧ State.reset.dec.stat = []

/-- 10_state R25, R40; 70_reset R249: the host reaches the engines through the ports only: none of its actions writes a
register of either engine. (`HostActionsOnPorts` says what each action does.) -/
def Obligations.HostWritesNoRegister : Prop :=
  ∀ (s t : State), hostStep s = some t →
    t.cfg = s.cfg
    ∧ t.enc = { s.enc with cmd := t.enc.cmd, pixIn := t.enc.pixIn, byteOut := t.enc.byteOut, stat := t.enc.stat }
    ∧ t.dec = { s.dec with
        cmd := t.dec.cmd, byteIn := t.dec.byteIn, pixOut := t.dec.pixOut, stat := t.dec.stat }

/-- 10_state R40 to R45, R47; 70_reset R246, R247: what each action of the host does to its port, and that it does nothing
else. A put adds one token at the newest end and always succeeds; a take removes the oldest token and waits on an empty port;
a removal takes the oldest input token between operations only. The order of the host's list is the model's (log 3), and so
are `setTurn` (log 4), the mark `op` of an input token (log 6), and that a removal asks neither that the token be left over
nor that no start command be queued (log 14). -/
def Obligations.HostActionsOnPorts : Prop :=
  ∀ (s : State),
    HostAction.putReset.perform s = some { s with rst := s.rst + 1 }
    ∧ (∀ c, (HostAction.putEncStart c).perform s = some { s with enc := { s.enc with cmd := s.enc.cmd ++ [c] } })
    ∧ (∀ c op, (HostAction.putPixel c op).perform s
        = some { s with enc := { s.enc with pixIn := s.enc.pixIn ++ [⟨c, op⟩] } })
    ∧ HostAction.putDecStart.perform s = some { s with dec := { s.dec with cmd := s.dec.cmd + 1 } }
    ∧ (∀ v op, (HostAction.putByte v op).perform s
        = some { s with dec := { s.dec with byteIn := s.dec.byteIn ++ [⟨.byte v, op⟩] } })
    ∧ (∀ op, (HostAction.putEos op).perform s
        = some { s with dec := { s.dec with byteIn := s.dec.byteIn ++ [⟨.eos, op⟩] } })
    ∧ (∀ b rest, s.enc.byteOut = b :: rest →
        HostAction.takeByte.perform s = some { s with enc := { s.enc with byteOut := rest } })
    ∧ (s.enc.byteOut = [] → HostAction.takeByte.perform s = none)
    ∧ (∀ p rest, s.dec.pixOut = p :: rest →
        HostAction.takePixel.perform s = some { s with dec := { s.dec with pixOut := rest } })
    ∧ (s.dec.pixOut = [] → HostAction.takePixel.perform s = none)
    ∧ (∀ r rest, s.enc.stat = r :: rest →
        HostAction.takeEncStatus.perform s = some { s with enc := { s.enc with stat := rest } })
    ∧ (s.enc.stat = [] → HostAction.takeEncStatus.perform s = none)
    ∧ (∀ r rest, s.dec.stat = r :: rest →
        HostAction.takeDecStatus.perform s = some { s with dec := { s.dec with stat := rest } })
    ∧ (s.dec.stat = [] → HostAction.takeDecStatus.perform s = none)
    ∧ (∀ p rest, s.enc.phase ≠ .body → s.enc.pixIn = p :: rest →
        HostAction.dropPixel.perform s = some { s with enc := { s.enc with pixIn := rest } })
    ∧ ((s.enc.phase = .body ∨ s.enc.pixIn = []) → HostAction.dropPixel.perform s = none)
    ∧ (∀ t rest, s.dec.phase ≠ .header → s.dec.phase ≠ .body → s.dec.byteIn = t :: rest →
        HostAction.dropInput.perform s = some { s with dec := { s.dec with byteIn := rest } })
    ∧ ((s.dec.phase = .header ∨ s.dec.phase = .body ∨ s.dec.byteIn = []) → HostAction.dropInput.perform s = none)
    ∧ (∀ a, (HostAction.setTurn a).perform s = some { s with turn := a })
    ∧ (s.host = [] → hostStep s = none)
    ∧ (∀ a rest, s.host = a :: rest → hostStep s = (a.perform s).map fun t => { t with host := rest })

/-- 10_state R20, 00_scope R6: the engines share nothing. A step of one leaves the other as it was, and is the same step
whatever the other is. -/
def Obligations.EnginesShareNothing : Prop :=
  ∀ (s t : State),
    (encStep s = some (.next t) →
      t.dec = s.dec ∧ ∀ d, encStep { s with dec := d } = some (.next { t with dec := d }))
    ∧ (decStep s = some (.next t) →
      t.enc = s.enc ∧ ∀ x, decStep { s with enc := x } = some (.next { t with enc := x }))

/-- 30_encoding R102, 70_reset R249, 10_state R46: nothing stops the machine but the launch that 93 U14 says to refuse: every
other step answers a next state, with the parameter unchanged, and that launch is refused by name. -/
def Obligations.EveryStepGoesOn : Prop :=
  ∀ s : State,
    (∃ t, step s = .next t ∧ t.cfg = s.cfg)
    ∨ (step s = .refused (.undrainedLaunch .dec) ∧ s.dec.LaunchRefused)
    ∨ (step s = .refused (.undrainedLaunch .enc) ∧ s.enc.LaunchRefused)

/-! ### Invariants -/

/-- 10_state R22, R23, R28, R29, R31; 41_color_cache R135; 43_chunk_encoder R184, R190: the invariant of both engines
(`State.Inv`) is kept by every step, from every state that meets it. -/
def Obligations.StepKeepsInvariant : Prop :=
  ∀ s t : State, s.Inv → step s = .next t → t.Inv

/-- The invariant holds right after reset. -/
def Obligations.ResetMeetsInvariant : Prop := State.reset.Inv

/-! ### The engines together -/

/-- 41_color_cache R136, R137: one pixel in lockstep. Where both engines have the same `prev` and cache, ENC writes for a
pixel other than `prev` its pending run and then one chunk; that chunk, executed by DEC, emits the pixel and leaves DEC with
the `prev` and the cache ENC has after the pixel. -/
def Obligations.ChosenChunkKeepsLockstep : Prop :=
  ∀ (s : State) (c : Color), s.dec.phase = .body → s.dec.count < s.dec.target →
    s.dec.cache = s.enc.cache → s.dec.prev = s.enc.prev → c ≠ s.enc.prev →
    ∃ i t, (s.enc.encodePixel c).byteOut = s.enc.byteOut ++ s.enc.pendingRun ++ encode i
      ∧ i.region = .chunks ∧ i.WellFormed ∧ exec i s = .next t
      ∧ t.dec.pixOut = s.dec.pixOut ++ [c] ∧ t.dec.prev = (s.enc.encodePixel c).prev ∧ t.dec.prev = c
      ∧ ∀ k, t.dec.cache.lookup k = (s.enc.encodePixel c).cache.lookup k

/-- 42_chunk_decoder R158, 70_reset R249: a decode operation ends on every byte list, with exactly `width * height` pixels
and no more bytes used than there are, or with one of the five errors. -/
def Obligations.DecodeAlwaysEnds : Prop :=
  ∀ (cfg : Config) (bytes : List Byte),
    (∃ w h ch cs pixels used, decodeStream cfg bytes = some (.ok w h ch cs pixels used)
      ∧ pixels.length = w.toNat * h.toNat ∧ used ≤ bytes.length ∧ w.toNat * h.toNat ≤ cfg.maxPixels)
    ∨ (∃ (e : ErrorKind) (offset : Nat) (pixels : List Color),
      decodeStream cfg bytes = some (.error ⟨e.code, offset, pixels.length⟩ pixels) ∧ offset ≤ bytes.length)

/-- 43_chunk_encoder R188, R190: an encode of as many pixels as the image has ends, with an error exactly when the channel
count or the size is refused, and otherwise with at most `22 + 5*w*h` bytes. -/
def Obligations.EncodeAlwaysEnds : Prop :=
  ∀ (cfg : Config) (w h : Word32) (ch cs : Byte) (pixels : List Color), pixels.length = w.toNat * h.toNat →
    (¬ LegalChannels ch → encodeImage cfg w h ch cs pixels = some (.error 2))
    ∧ (LegalChannels ch → cfg.maxPixels < w.toNat * h.toNat → encodeImage cfg w h ch cs pixels = some (.error 3))
    ∧ (LegalChannels ch → w.toNat * h.toNat ≤ cfg.maxPixels →
      ∃ bytes, encodeImage cfg w h ch cs pixels = some (.ok bytes) ∧ bytes.length ≤ 22 + 5 * (w.toNat * h.toNat))

/-- 43_chunk_encoder R189: the round trip. What ENC writes for an image, DEC reads back as the same image, with alpha 255
throughout for three channels, and stops exactly at the first byte of the end marker. -/
def Obligations.DecodeOfEncodedImage : Prop :=
  ∀ (cfg : Config) (w h : Word32) (ch cs : Byte) (pixels : List Color) (bytes : List Byte),
    pixels.length = w.toNat * h.toNat → encodeImage cfg w h ch cs pixels = some (.ok bytes) →
    decodeStream cfg bytes = some (.ok w h ch cs (pixels.map (forceAlpha ch)) (bytes.length - 8))
end

