-- ==== Sys2Proof/Laws/Cache.lean ====
section
/-! SUPPORT. The colour cache through `lookup`: what a store and a clear leave in every slot. -/

namespace Sys2Proof.Machine

/-- A store is seen in its own slot and nowhere else (41_color_cache R133). -/
theorem Cache.lookup_store_eq (m : Cache) (c : Color) (i : CacheIndex) :
    (m.store c).lookup i = if i = colorHash c then c else m.lookup i := by
  unfold Cache.lookup Cache.store
  rw [Vector.getElem_set]
  by_cases h : i = colorHash c
  · simp [h]
  · have h' : (colorHash c).toNat ≠ i.toNat := fun e => h (BitVec.eq_of_toNat_eq e.symm)
    simp [h, h']

@[simp] theorem Cache.lookup_store_self (m : Cache) (c : Color) : (m.store c).lookup (colorHash c) = c := by
  rw [Cache.lookup_store_eq, if_pos rfl]

@[simp] theorem Cache.lookup_filled (c : Color) (i : CacheIndex) : (Cache.filled c).lookup i = c := by
  simp [Cache.lookup, Cache.filled]

/-- Every slot of a cleared cache is (0,0,0,0) (41_color_cache R134). -/
@[simp] theorem Cache.lookup_clear (i : CacheIndex) : Cache.clear.lookup i = initCacheEntry :=
  Cache.lookup_filled _ i

/-- Two caches with the same slots are the same. -/
theorem Cache.ext_lookup {m m' : Cache} (h : ∀ i, m.lookup i = m'.lookup i) : m = m' := by
  apply Vector.ext
  intro j hj
  have := h (BitVec.ofNat 6 j)
  have hj' : (BitVec.ofNat 6 j).toNat = j := by rw [BitVec.toNat_ofNat]; exact Nat.mod_eq_of_lt hj
  simpa [Cache.lookup, hj'] using this

/-- Storing the colour a slot already holds changes nothing (41_color_cache R133). -/
theorem Cache.store_of_hit {m : Cache} {c : Color} (h : m.lookup (colorHash c) = c) : m.store c = m := by
  apply Cache.ext_lookup
  intro i
  rw [Cache.lookup_store_eq]
  split
  · next e => rw [e, h]
  · rfl

@[simp] theorem colorHash_initCacheEntry : colorHash initCacheEntry = 0 := by decide

end Sys2Proof.Machine
end

