-- ==== Sys2Proof/Laws/State.lean ====
section
/-! SUPPORT. What each update does to each field, by rfl, so that no proof unfolds a record update. -/

namespace Sys2Proof.Machine

/-! ### Enc.raise -/

@[simp] theorem Enc.raise_phase (e : ErrorKind) (o : Nat) (x : Enc) : (x.raise e o).phase = .fault := rfl
@[simp] theorem Enc.raise_prev (e : ErrorKind) (o : Nat) (x : Enc) : (x.raise e o).prev = x.prev := rfl
@[simp] theorem Enc.raise_run (e : ErrorKind) (o : Nat) (x : Enc) : (x.raise e o).run = x.run := rfl
@[simp] theorem Enc.raise_cache (e : ErrorKind) (o : Nat) (x : Enc) : (x.raise e o).cache = x.cache := rfl
@[simp] theorem Enc.raise_width (e : ErrorKind) (o : Nat) (x : Enc) : (x.raise e o).width = x.width := rfl
@[simp] theorem Enc.raise_height (e : ErrorKind) (o : Nat) (x : Enc) : (x.raise e o).height = x.height := rfl
@[simp] theorem Enc.raise_channels (e : ErrorKind) (o : Nat) (x : Enc) : (x.raise e o).channels = x.channels := rfl
@[simp] theorem Enc.raise_colorspace (e : ErrorKind) (o : Nat) (x : Enc) : (x.raise e o).colorspace = x.colorspace := rfl
@[simp] theorem Enc.raise_target (e : ErrorKind) (o : Nat) (x : Enc) : (x.raise e o).target = x.target := rfl
@[simp] theorem Enc.raise_count (e : ErrorKind) (o : Nat) (x : Enc) : (x.raise e o).count = x.count := rfl
@[simp] theorem Enc.raise_opos (e : ErrorKind) (o : Nat) (x : Enc) : (x.raise e o).opos = x.opos := rfl
@[simp] theorem Enc.raise_fault (e : ErrorKind) (o : Nat) (x : Enc) : (x.raise e o).fault = faultRecord e o x.count := rfl
@[simp] theorem Enc.raise_cmd (e : ErrorKind) (o : Nat) (x : Enc) : (x.raise e o).cmd = x.cmd := rfl
@[simp] theorem Enc.raise_pixIn (e : ErrorKind) (o : Nat) (x : Enc) : (x.raise e o).pixIn = x.pixIn := rfl
@[simp] theorem Enc.raise_byteOut (e : ErrorKind) (o : Nat) (x : Enc) : (x.raise e o).byteOut = x.byteOut := rfl
@[simp] theorem Enc.raise_stat (e : ErrorKind) (o : Nat) (x : Enc) : (x.raise e o).stat = x.stat ++ [.fault (faultRecord e o x.count)] := rfl
@[simp] theorem Enc.raise_free (e : ErrorKind) (o : Nat) (x : Enc) : (x.raise e o).free = x.free := rfl
@[simp] theorem Enc.raise_launches (e : ErrorKind) (o : Nat) (x : Enc) : (x.raise e o).launches = x.launches := rfl

/-! ### Dec.raise -/

@[simp] theorem Dec.raise_phase (e : ErrorKind) (o : Nat) (d : Dec) : (d.raise e o).phase = .fault := rfl
@[simp] theorem Dec.raise_prev (e : ErrorKind) (o : Nat) (d : Dec) : (d.raise e o).prev = d.prev := rfl
@[simp] theorem Dec.raise_cache (e : ErrorKind) (o : Nat) (d : Dec) : (d.raise e o).cache = d.cache := rfl
@[simp] theorem Dec.raise_width (e : ErrorKind) (o : Nat) (d : Dec) : (d.raise e o).width = d.width := rfl
@[simp] theorem Dec.raise_height (e : ErrorKind) (o : Nat) (d : Dec) : (d.raise e o).height = d.height := rfl
@[simp] theorem Dec.raise_channels (e : ErrorKind) (o : Nat) (d : Dec) : (d.raise e o).channels = d.channels := rfl
@[simp] theorem Dec.raise_colorspace (e : ErrorKind) (o : Nat) (d : Dec) : (d.raise e o).colorspace = d.colorspace := rfl
@[simp] theorem Dec.raise_target (e : ErrorKind) (o : Nat) (d : Dec) : (d.raise e o).target = d.target := rfl
@[simp] theorem Dec.raise_count (e : ErrorKind) (o : Nat) (d : Dec) : (d.raise e o).count = d.count := rfl
@[simp] theorem Dec.raise_ipos (e : ErrorKind) (o : Nat) (d : Dec) : (d.raise e o).ipos = d.ipos := rfl
@[simp] theorem Dec.raise_fault (e : ErrorKind) (o : Nat) (d : Dec) : (d.raise e o).fault = faultRecord e o d.count := rfl
@[simp] theorem Dec.raise_cmd (e : ErrorKind) (o : Nat) (d : Dec) : (d.raise e o).cmd = d.cmd := rfl
@[simp] theorem Dec.raise_byteIn (e : ErrorKind) (o : Nat) (d : Dec) : (d.raise e o).byteIn = d.byteIn := rfl
@[simp] theorem Dec.raise_pixOut (e : ErrorKind) (o : Nat) (d : Dec) : (d.raise e o).pixOut = d.pixOut := rfl
@[simp] theorem Dec.raise_stat (e : ErrorKind) (o : Nat) (d : Dec) : (d.raise e o).stat = d.stat ++ [.fault (faultRecord e o d.count)] := rfl
@[simp] theorem Dec.raise_free (e : ErrorKind) (o : Nat) (d : Dec) : (d.raise e o).free = d.free := rfl
@[simp] theorem Dec.raise_launches (e : ErrorKind) (o : Nat) (d : Dec) : (d.raise e o).launches = d.launches := rfl

/-! ### Enc.memWrite -/

@[simp] theorem Enc.memWrite_phase (v : List Byte) (x : Enc) : (x.memWrite v).phase = x.phase := rfl
@[simp] theorem Enc.memWrite_prev (v : List Byte) (x : Enc) : (x.memWrite v).prev = x.prev := rfl
@[simp] theorem Enc.memWrite_run (v : List Byte) (x : Enc) : (x.memWrite v).run = x.run := rfl
@[simp] theorem Enc.memWrite_cache (v : List Byte) (x : Enc) : (x.memWrite v).cache = x.cache := rfl
@[simp] theorem Enc.memWrite_width (v : List Byte) (x : Enc) : (x.memWrite v).width = x.width := rfl
@[simp] theorem Enc.memWrite_height (v : List Byte) (x : Enc) : (x.memWrite v).height = x.height := rfl
@[simp] theorem Enc.memWrite_channels (v : List Byte) (x : Enc) : (x.memWrite v).channels = x.channels := rfl
@[simp] theorem Enc.memWrite_colorspace (v : List Byte) (x : Enc) : (x.memWrite v).colorspace = x.colorspace := rfl
@[simp] theorem Enc.memWrite_target (v : List Byte) (x : Enc) : (x.memWrite v).target = x.target := rfl
@[simp] theorem Enc.memWrite_count (v : List Byte) (x : Enc) : (x.memWrite v).count = x.count := rfl
@[simp] theorem Enc.memWrite_opos (v : List Byte) (x : Enc) : (x.memWrite v).opos = x.opos + v.length := rfl
@[simp] theorem Enc.memWrite_fault (v : List Byte) (x : Enc) : (x.memWrite v).fault = x.fault := rfl
@[simp] theorem Enc.memWrite_cmd (v : List Byte) (x : Enc) : (x.memWrite v).cmd = x.cmd := rfl
@[simp] theorem Enc.memWrite_pixIn (v : List Byte) (x : Enc) : (x.memWrite v).pixIn = x.pixIn := rfl
@[simp] theorem Enc.memWrite_byteOut (v : List Byte) (x : Enc) : (x.memWrite v).byteOut = x.byteOut ++ v := rfl
@[simp] theorem Enc.memWrite_stat (v : List Byte) (x : Enc) : (x.memWrite v).stat = x.stat := rfl
@[simp] theorem Enc.memWrite_free (v : List Byte) (x : Enc) : (x.memWrite v).free = x.free := rfl
@[simp] theorem Enc.memWrite_launches (v : List Byte) (x : Enc) : (x.memWrite v).launches = x.launches := rfl

/-! ### Enc.emit -/

@[simp] theorem Enc.emit_phase (i : Instr) (x : Enc) : (x.emit i).phase = x.phase := rfl
@[simp] theorem Enc.emit_prev (i : Instr) (x : Enc) : (x.emit i).prev = x.prev := rfl
@[simp] theorem Enc.emit_run (i : Instr) (x : Enc) : (x.emit i).run = x.run := rfl
@[simp] theorem Enc.emit_cache (i : Instr) (x : Enc) : (x.emit i).cache = x.cache := rfl
@[simp] theorem Enc.emit_width (i : Instr) (x : Enc) : (x.emit i).width = x.width := rfl
@[simp] theorem Enc.emit_height (i : Instr) (x : Enc) : (x.emit i).height = x.height := rfl
@[simp] theorem Enc.emit_channels (i : Instr) (x : Enc) : (x.emit i).channels = x.channels := rfl
@[simp] theorem Enc.emit_colorspace (i : Instr) (x : Enc) : (x.emit i).colorspace = x.colorspace := rfl
@[simp] theorem Enc.emit_target (i : Instr) (x : Enc) : (x.emit i).target = x.target := rfl
@[simp] theorem Enc.emit_count (i : Instr) (x : Enc) : (x.emit i).count = x.count := rfl
@[simp] theorem Enc.emit_opos (i : Instr) (x : Enc) : (x.emit i).opos = x.opos + (encode i).length := rfl
@[simp] theorem Enc.emit_fault (i : Instr) (x : Enc) : (x.emit i).fault = x.fault := rfl
@[simp] theorem Enc.emit_cmd (i : Instr) (x : Enc) : (x.emit i).cmd = x.cmd := rfl
@[simp] theorem Enc.emit_pixIn (i : Instr) (x : Enc) : (x.emit i).pixIn = x.pixIn := rfl
@[simp] theorem Enc.emit_byteOut (i : Instr) (x : Enc) : (x.emit i).byteOut = x.byteOut ++ encode i := rfl
@[simp] theorem Enc.emit_stat (i : Instr) (x : Enc) : (x.emit i).stat = x.stat := rfl
@[simp] theorem Enc.emit_free (i : Instr) (x : Enc) : (x.emit i).free = x.free := rfl
@[simp] theorem Enc.emit_launches (i : Instr) (x : Enc) : (x.emit i).launches = x.launches := rfl

/-! ### Enc.finish -/

@[simp] theorem Enc.finish_phase (x : Enc) : (x.finish).phase = .done := rfl
@[simp] theorem Enc.finish_prev (x : Enc) : (x.finish).prev = x.prev := rfl
@[simp] theorem Enc.finish_run (x : Enc) : (x.finish).run = x.run := rfl
@[simp] theorem Enc.finish_cache (x : Enc) : (x.finish).cache = x.cache := rfl
@[simp] theorem Enc.finish_width (x : Enc) : (x.finish).width = x.width := rfl
@[simp] theorem Enc.finish_height (x : Enc) : (x.finish).height = x.height := rfl
@[simp] theorem Enc.finish_channels (x : Enc) : (x.finish).channels = x.channels := rfl
@[simp] theorem Enc.finish_colorspace (x : Enc) : (x.finish).colorspace = x.colorspace := rfl
@[simp] theorem Enc.finish_target (x : Enc) : (x.finish).target = x.target := rfl
@[simp] theorem Enc.finish_count (x : Enc) : (x.finish).count = x.count := rfl
@[simp] theorem Enc.finish_opos (x : Enc) : (x.finish).opos = x.opos + 8 := rfl
@[simp] theorem Enc.finish_fault (x : Enc) : (x.finish).fault = x.fault := rfl
@[simp] theorem Enc.finish_cmd (x : Enc) : (x.finish).cmd = x.cmd := rfl
@[simp] theorem Enc.finish_pixIn (x : Enc) : (x.finish).pixIn = x.pixIn := rfl
@[simp] theorem Enc.finish_byteOut (x : Enc) : (x.finish).byteOut = x.byteOut ++ [0, 0, 0, 0, 0, 0, 0, 1] := rfl
@[simp] theorem Enc.finish_stat (x : Enc) : (x.finish).stat = x.stat ++ [.done (x.opos + 8)] := rfl
@[simp] theorem Enc.finish_free (x : Enc) : (x.finish).free = x.free := rfl
@[simp] theorem Enc.finish_launches (x : Enc) : (x.finish).launches = x.launches := rfl

/-! ### Enc.flushRun -/

@[simp] theorem Enc.flushRun_phase (x : Enc) : (x.flushRun).phase = x.phase := rfl
@[simp] theorem Enc.flushRun_prev (x : Enc) : (x.flushRun).prev = x.prev := rfl
@[simp] theorem Enc.flushRun_run (x : Enc) : (x.flushRun).run = 0 := rfl
@[simp] theorem Enc.flushRun_cache (x : Enc) : (x.flushRun).cache = x.cache := rfl
@[simp] theorem Enc.flushRun_width (x : Enc) : (x.flushRun).width = x.width := rfl
@[simp] theorem Enc.flushRun_height (x : Enc) : (x.flushRun).height = x.height := rfl
@[simp] theorem Enc.flushRun_channels (x : Enc) : (x.flushRun).channels = x.channels := rfl
@[simp] theorem Enc.flushRun_colorspace (x : Enc) : (x.flushRun).colorspace = x.colorspace := rfl
@[simp] theorem Enc.flushRun_target (x : Enc) : (x.flushRun).target = x.target := rfl
@[simp] theorem Enc.flushRun_count (x : Enc) : (x.flushRun).count = x.count := rfl
@[simp] theorem Enc.flushRun_opos (x : Enc) : (x.flushRun).opos = x.opos + 1 := rfl
@[simp] theorem Enc.flushRun_fault (x : Enc) : (x.flushRun).fault = x.fault := rfl
@[simp] theorem Enc.flushRun_cmd (x : Enc) : (x.flushRun).cmd = x.cmd := rfl
@[simp] theorem Enc.flushRun_pixIn (x : Enc) : (x.flushRun).pixIn = x.pixIn := rfl
@[simp] theorem Enc.flushRun_byteOut (x : Enc) : (x.flushRun).byteOut = x.byteOut ++ encode (.run x.run.toNat) := rfl
@[simp] theorem Enc.flushRun_stat (x : Enc) : (x.flushRun).stat = x.stat := rfl
@[simp] theorem Enc.flushRun_free (x : Enc) : (x.flushRun).free = x.free := rfl
@[simp] theorem Enc.flushRun_launches (x : Enc) : (x.flushRun).launches = x.launches := rfl

/-! ### Enc.initialise -/

@[simp] theorem Enc.initialise_phase (c : EncCommand) (x : Enc) : (x.initialise c).phase = x.phase := rfl
@[simp] theorem Enc.initialise_prev (c : EncCommand) (x : Enc) : (x.initialise c).prev = initPrev := rfl
@[simp] theorem Enc.initialise_run (c : EncCommand) (x : Enc) : (x.initialise c).run = 0 := rfl
@[simp] theorem Enc.initialise_cache (c : EncCommand) (x : Enc) : (x.initialise c).cache = Cache.clear := rfl
@[simp] theorem Enc.initialise_width (c : EncCommand) (x : Enc) : (x.initialise c).width = c.width := rfl
@[simp] theorem Enc.initialise_height (c : EncCommand) (x : Enc) : (x.initialise c).height = c.height := rfl
@[simp] theorem Enc.initialise_channels (c : EncCommand) (x : Enc) : (x.initialise c).channels = c.channels := rfl
@[simp] theorem Enc.initialise_colorspace (c : EncCommand) (x : Enc) : (x.initialise c).colorspace = c.colorspace := rfl
@[simp] theorem Enc.initialise_target (c : EncCommand) (x : Enc) : (x.initialise c).target = pixelCount c.width c.height := rfl
@[simp] theorem Enc.initialise_count (c : EncCommand) (x : Enc) : (x.initialise c).count = 0 := rfl
@[simp] theorem Enc.initialise_opos (c : EncCommand) (x : Enc) : (x.initialise c).opos = 0 := rfl
@[simp] theorem Enc.initialise_fault (c : EncCommand) (x : Enc) : (x.initialise c).fault = freeFault .enc x.free := rfl
@[simp] theorem Enc.initialise_cmd (c : EncCommand) (x : Enc) : (x.initialise c).cmd = x.cmd := rfl
@[simp] theorem Enc.initialise_pixIn (c : EncCommand) (x : Enc) : (x.initialise c).pixIn = x.pixIn := rfl
@[simp] theorem Enc.initialise_byteOut (c : EncCommand) (x : Enc) : (x.initialise c).byteOut = x.byteOut := rfl
@[simp] theorem Enc.initialise_stat (c : EncCommand) (x : Enc) : (x.initialise c).stat = x.stat := rfl
@[simp] theorem Enc.initialise_free (c : EncCommand) (x : Enc) : (x.initialise c).free = x.free + 1 := rfl
@[simp] theorem Enc.initialise_launches (c : EncCommand) (x : Enc) : (x.initialise c).launches = x.launches + 1 := rfl

/-! ### Enc.afterReset -/

@[simp] theorem Enc.afterReset_phase (x : Enc) : (x.afterReset).phase = .idle := rfl
@[simp] theorem Enc.afterReset_cmd (x : Enc) : (x.afterReset).cmd = [] := rfl
@[simp] theorem Enc.afterReset_pixIn (x : Enc) : (x.afterReset).pixIn = [] := rfl
@[simp] theorem Enc.afterReset_byteOut (x : Enc) : (x.afterReset).byteOut = [] := rfl
@[simp] theorem Enc.afterReset_stat (x : Enc) : (x.afterReset).stat = [] := rfl
@[simp] theorem Enc.afterReset_free (x : Enc) : (x.afterReset).free = x.free + 1 := rfl
@[simp] theorem Enc.afterReset_launches (x : Enc) : (x.afterReset).launches = 0 := rfl

/-! ### Dec.afterReset -/

@[simp] theorem Dec.afterReset_phase (d : Dec) : (d.afterReset).phase = .idle := rfl
@[simp] theorem Dec.afterReset_cmd (d : Dec) : (d.afterReset).cmd = 0 := rfl
@[simp] theorem Dec.afterReset_byteIn (d : Dec) : (d.afterReset).byteIn = [] := rfl
@[simp] theorem Dec.afterReset_pixOut (d : Dec) : (d.afterReset).pixOut = [] := rfl
@[simp] theorem Dec.afterReset_stat (d : Dec) : (d.afterReset).stat = [] := rfl
@[simp] theorem Dec.afterReset_free (d : Dec) : (d.afterReset).free = d.free + 1 := rfl
@[simp] theorem Dec.afterReset_launches (d : Dec) : (d.afterReset).launches = 0 := rfl

/-! ### Dec.start -/

@[simp] theorem Dec.start_phase (d : Dec) : (d.start).phase = .header := rfl
@[simp] theorem Dec.start_prev (d : Dec) : (d.start).prev = initPrev := rfl
@[simp] theorem Dec.start_cache (d : Dec) : (d.start).cache = Cache.clear := rfl
@[simp] theorem Dec.start_count (d : Dec) : (d.start).count = 0 := rfl
@[simp] theorem Dec.start_ipos (d : Dec) : (d.start).ipos = 0 := rfl
@[simp] theorem Dec.start_cmd (d : Dec) : (d.start).cmd = d.cmd - 1 := rfl
@[simp] theorem Dec.start_byteIn (d : Dec) : (d.start).byteIn = d.byteIn := rfl
@[simp] theorem Dec.start_pixOut (d : Dec) : (d.start).pixOut = d.pixOut := rfl
@[simp] theorem Dec.start_stat (d : Dec) : (d.start).stat = d.stat := rfl
@[simp] theorem Dec.start_free (d : Dec) : (d.start).free = d.free + 1 := rfl
@[simp] theorem Dec.start_launches (d : Dec) : (d.start).launches = d.launches + 1 := rfl
@[simp] theorem Dec.start_stream (d : Dec) : (d.start).stream = d.stream := rfl

/-! ### State.takeReset -/

@[simp] theorem State.takeReset_enc (s : State) : s.takeReset.enc = s.enc.afterReset := rfl
@[simp] theorem State.takeReset_dec (s : State) : s.takeReset.dec = s.dec.afterReset := rfl
@[simp] theorem State.takeReset_rst (s : State) : s.takeReset.rst = s.rst - 1 := rfl
@[simp] theorem State.takeReset_cfg (s : State) : s.takeReset.cfg = s.cfg := rfl
@[simp] theorem State.takeReset_host (s : State) : s.takeReset.host = s.host := rfl
@[simp] theorem State.takeReset_turn (s : State) : s.takeReset.turn = s.turn := rfl

/-! ### Dec.finishChunk: what it writes whichever way it ends -/

theorem Dec.finishChunk_phase (len : Nat) (d : Dec) :
    (d.finishChunk len).phase = if d.count = d.target then .done else d.phase := by
  unfold Dec.finishChunk; dsimp only; split <;> rfl

@[simp] theorem Dec.finishChunk_prev (len : Nat) (d : Dec) : (d.finishChunk len).prev = d.prev := by
  unfold Dec.finishChunk; dsimp only; split <;> rfl

@[simp] theorem Dec.finishChunk_cache (len : Nat) (d : Dec) : (d.finishChunk len).cache = d.cache := by
  unfold Dec.finishChunk; dsimp only; split <;> rfl

@[simp] theorem Dec.finishChunk_width (len : Nat) (d : Dec) : (d.finishChunk len).width = d.width := by
  unfold Dec.finishChunk; dsimp only; split <;> rfl

@[simp] theorem Dec.finishChunk_height (len : Nat) (d : Dec) : (d.finishChunk len).height = d.height := by
  unfold Dec.finishChunk; dsimp only; split <;> rfl

@[simp] theorem Dec.finishChunk_channels (len : Nat) (d : Dec) : (d.finishChunk len).channels = d.channels := by
  unfold Dec.finishChunk; dsimp only; split <;> rfl

@[simp] theorem Dec.finishChunk_colorspace (len : Nat) (d : Dec) : (d.finishChunk len).colorspace = d.colorspace := by
  unfold Dec.finishChunk; dsimp only; split <;> rfl

@[simp] theorem Dec.finishChunk_target (len : Nat) (d : Dec) : (d.finishChunk len).target = d.target := by
  unfold Dec.finishChunk; dsimp only; split <;> rfl

@[simp] theorem Dec.finishChunk_count (len : Nat) (d : Dec) : (d.finishChunk len).count = d.count := by
  unfold Dec.finishChunk; dsimp only; split <;> rfl

@[simp] theorem Dec.finishChunk_ipos (len : Nat) (d : Dec) : (d.finishChunk len).ipos = d.ipos + len := by
  unfold Dec.finishChunk; dsimp only; split <;> rfl

@[simp] theorem Dec.finishChunk_fault (len : Nat) (d : Dec) : (d.finishChunk len).fault = d.fault := by
  unfold Dec.finishChunk; dsimp only; split <;> rfl

@[simp] theorem Dec.finishChunk_cmd (len : Nat) (d : Dec) : (d.finishChunk len).cmd = d.cmd := by
  unfold Dec.finishChunk; dsimp only; split <;> rfl

@[simp] theorem Dec.finishChunk_byteIn (len : Nat) (d : Dec) : (d.finishChunk len).byteIn = d.byteIn.drop len := by
  unfold Dec.finishChunk; dsimp only; split <;> rfl

@[simp] theorem Dec.finishChunk_stream (len : Nat) (d : Dec) : (d.finishChunk len).stream = d.stream.drop len := by
  simp [Dec.stream, List.map_drop]

@[simp] theorem Dec.finishChunk_pixOut (len : Nat) (d : Dec) : (d.finishChunk len).pixOut = d.pixOut := by
  unfold Dec.finishChunk; dsimp only; split <;> rfl

theorem Dec.finishChunk_stat (len : Nat) (d : Dec) :
    (d.finishChunk len).stat = if d.count = d.target then d.stat ++ [.done (d.ipos + len)] else d.stat := by
  unfold Dec.finishChunk; dsimp only; split <;> rfl

@[simp] theorem Dec.finishChunk_launches (len : Nat) (d : Dec) : (d.finishChunk len).launches = d.launches := by
  unfold Dec.finishChunk; dsimp only; split <;> rfl

@[simp] theorem Dec.finishChunk_free (len : Nat) (d : Dec) : (d.finishChunk len).free = d.free := by
  unfold Dec.finishChunk; dsimp only; split <;> rfl

/-! ### The input ports: DEC's view, and the marks -/

/-- Tokens that leave `byte_in` leave the stream DEC reads. -/
theorem Dec.stream_drop {d d' : Dec} {n : Nat} (h : d'.byteIn = d.byteIn.drop n) : d'.stream = d.stream.drop n := by
  simp [Dec.stream, h, List.map_drop]

@[simp] theorem leftoverFirst_nil {α : Type} (n : Nat) : leftoverFirst n ([] : List (Marked α)) = false := rfl

@[simp] theorem leftoverFirst_cons {α : Type} (n : Nat) (t : Marked α) (rest : List (Marked α)) :
    leftoverFirst n (t :: rest) = decide (t.op < n) := rfl

/-- A port begins with a leftover exactly when its oldest token was put for an earlier start command. -/
theorem leftoverFirst_eq_true {α : Type} {n : Nat} {port : List (Marked α)} :
    leftoverFirst n port = true ↔ ∃ t rest, port = t :: rest ∧ t.op < n := by
  cases port with
  | nil => simp
  | cons t rest => simp

/-- Before the first start command since the reset nothing is left over. -/
theorem leftoverFirst_zero {α : Type} (port : List (Marked α)) : leftoverFirst 0 port = false := by
  cases port <;> simp

end Sys2Proof.Machine
end

