-- ==== Sys2Proof/Laws/Stream.lean ====
section
/-! SUPPORT. `memRead` (20_memory R62) on ports of a known shape. -/

namespace Sys2Proof.Machine

/-- Enough bytes at the head of the port are read, whatever follows. -/
theorem memRead_bytes (l : List Byte) (more : List InToken) :
    memRead l.length (l.map .byte ++ more) = .bytes l := by
  induction l with
  | nil => rfl
  | cons b l ih => simp [memRead, ih, ReadResult.push]

/-- A read of `n` bytes takes the first `n` of a longer run of bytes. -/
theorem memRead_take {n : Nat} {l : List Byte} (h : n ≤ l.length) (more : List InToken) :
    memRead n (l.map .byte ++ more) = .bytes (l.take n) := by
  have key := memRead_bytes (l.take n) ((l.drop n).map .byte ++ more)
  rwa [List.length_take, Nat.min_eq_left h, ← List.append_assoc, ← List.map_append, List.take_append_drop] at key

/-- An `eos` behind too few bytes raises. -/
theorem memRead_eos {n : Nat} {l : List Byte} (h : l.length < n) (more : List InToken) :
    memRead n (l.map .byte ++ .eos :: more) = .eos := by
  induction l generalizing n with
  | nil =>
    match n, h with
    | _ + 1, _ => rfl
  | cons b l ih =>
    match n, h with
    | n + 1, h => simp [memRead, ih (Nat.lt_of_succ_lt_succ h), ReadResult.push]

/-- Too few bytes and no `eos`: the read waits. -/
theorem memRead_wait {n : Nat} {l : List Byte} (h : l.length < n) : memRead n (l.map .byte) = .wait := by
  induction l generalizing n with
  | nil =>
    match n, h with
    | _ + 1, _ => rfl
  | cons b l ih =>
    match n, h with
    | n + 1, h => simp [memRead, ih (Nat.lt_of_succ_lt_succ h), ReadResult.push]

/-- What a read answers is at the head of the port. -/
theorem eq_of_memRead_bytes {n : Nat} {port : List InToken} {l : List Byte} (h : memRead n port = .bytes l) :
    l.length = n ∧ port = l.map .byte ++ port.drop n := by
  induction n generalizing port l with
  | zero => cases l <;> simp_all [memRead]
  | succ n ih =>
    match port with
    | [] => simp [memRead] at h
    | .eos :: _ => simp [memRead] at h
    | .byte b :: rest =>
      simp only [memRead] at h
      match hr : memRead n rest with
      | .wait => simp [hr, ReadResult.push] at h
      | .eos => simp [hr, ReadResult.push] at h
      | .bytes l' =>
        simp only [hr, ReadResult.push, ReadResult.bytes.injEq] at h
        obtain ⟨hl, hp⟩ := ih hr
        subst h
        simp only [List.length_cons, hl, List.map_cons, List.cons_append, List.drop_succ_cons, true_and]
        rw [← hp]

end Sys2Proof.Machine
end

