-- ==== Sys2Proof/Laws/Decoder.lean ====
section
/-! SUPPORT. What the operations of DEC can do: one specification lemma for each. -/

namespace Sys2Proof.Machine

/-! ### EmitPixel -/

/-- DEC after an emitted pixel (42_chunk_decoder R142). -/
theorem Dec.emitPixel_ok {d : Dec} (h : d.count ≠ d.target) (c : Color) (b : Bool) :
    d.emitPixel c b = .ok { d with
      pixOut := d.pixOut ++ [c]
      cache := if b then d.cache.store c else d.cache
      prev := c
      count := d.count + 1 } := by
  rw [Dec.emitPixel, if_neg h]

/-- With every pixel produced, emitting one more raises (42_chunk_decoder R142). -/
theorem Dec.emitPixel_overrun {d : Dec} (h : d.count = d.target) (c : Color) (b : Bool) :
    d.emitPixel c b = .error (d.raise .overrun d.ipos) := by
  rw [Dec.emitPixel, if_pos h]

/-- A run that never meets `count = target`: it fits (42_chunk_decoder R146), or it starts beyond, where no run of the
machine gets. -/
theorem Dec.emitRun_ok {n : Nat} {d : Dec} (h : d.count + n ≤ d.target ∨ d.target < d.count) :
    d.emitRun n = .ok { d with pixOut := d.pixOut ++ List.replicate n d.prev, count := d.count + n } := by
  induction n generalizing d with
  | zero => simp [Dec.emitRun]
  | succ n ih =>
    rw [Dec.emitRun, Dec.emitPixel_ok (by omega)]
    simp only [Bool.false_eq_true, if_false]
    rw [ih (by dsimp only; omega)]
    simp [List.replicate_succ, Nat.add_assoc, Nat.add_comm 1 n]

/-- A run that does not fit: the pixels that do, then the raise (60_exceptions R215). -/
theorem Dec.emitRun_overrun {n : Nat} {d : Dec} (hc : d.count ≤ d.target) (h : d.target < d.count + n) :
    d.emitRun n = .error (Dec.raise .overrun d.ipos { d with
      pixOut := d.pixOut ++ List.replicate (d.target - d.count) d.prev, count := d.target }) := by
  induction n generalizing d with
  | zero => omega
  | succ n ih =>
    rw [Dec.emitRun]
    by_cases he : d.count = d.target
    · rw [Dec.emitPixel_overrun he]
      obtain ⟨⟩ := d
      simp_all
    · rw [Dec.emitPixel_ok he]
      simp only [Bool.false_eq_true, if_false]
      rw [ih (by dsimp only; omega) (by dsimp only; omega)]
      have e : d.target - d.count = (d.target - (d.count + 1)) + 1 := by omega
      simp [e, List.replicate_succ]

/-! ### The chunk step -/

theorem chunkStep_body {s : State} (h : s.dec.phase = .body) (len : Nat) (run : Dec → Except Dec Dec) :
    chunkStep len run s = .next { s with dec := Dec.endChunk len (run s.dec) } := by
  rw [chunkStep, if_pos h]

theorem chunkStep_wait {s : State} (h : s.dec.phase ≠ .body) (len : Nat) (run : Dec → Except Dec Dec) :
    chunkStep len run s = .next s := by
  rw [chunkStep, if_neg h]

/-- The end of a chunk that raised nothing, in BODY (42_chunk_decoder R143, R151). -/
theorem Dec.finishChunk_end {d d' : Dec} (len : Nat) (hp : d'.phase = .body) (ht : d'.target = d.target)
    (hi : d'.ipos = d.ipos) (hb : d'.byteIn = d.byteIn) (hf : d'.fault = d.fault) (hs : d'.stat = d.stat) :
    d.ChunkEnd len (d'.finishChunk len) where
  ipos := by simp [hi]
  byteIn := by simp [hb]
  fault := by simp [hf]
  phase := by simp [Dec.finishChunk_phase, ht, hp]
  stat := by simp [Dec.finishChunk_stat, ht, hi, hs]

/-- A chunk of one pixel, in BODY with a pixel to go: the pixel is emitted and stored (42_chunk_decoder R142, R143). -/
theorem chunkStep_onePixel {s : State} (hp : s.dec.phase = .body) (hc : s.dec.count < s.dec.target) (len : Nat)
    (f : Dec → Color) :
    ∃ t, chunkStep len (fun d => d.emitPixel (f d) true) s = .next t ∧ s.OnlyDec t
      ∧ s.dec.OnePixel (f s.dec) len t.dec := by
  refine ⟨_, chunkStep_body hp _ _, ⟨rfl, rfl, rfl, rfl, rfl⟩, ?_⟩
  dsimp only
  rw [Dec.emitPixel_ok (by omega)]
  simp only [if_true, Dec.endChunk]
  constructor
  · simp
  · simp
  · simp
  · intro i
    simp [Cache.lookup_store_eq]
  · exact Dec.finishChunk_end len hp rfl rfl rfl rfl rfl
  · constructor <;> simp

/-- Everything a chunk of one pixel can do: wait, raise OverrunError, or emit and store its pixel. -/
theorem chunkStep_onePixel_cases {s t : State} {len : Nat} {f : Dec → Color}
    (h : chunkStep len (fun d => d.emitPixel (f d) true) s = .next t) :
    (s.dec.phase ≠ .body ∧ t = s)
    ∨ (s.dec.phase = .body ∧ s.dec.count = s.dec.target ∧ t = { s with dec := s.dec.raise .overrun s.dec.ipos })
    ∨ (s.dec.phase = .body ∧ s.dec.count ≠ s.dec.target ∧ t = { s with dec := Dec.finishChunk len { s.dec with
        pixOut := s.dec.pixOut ++ [f s.dec], cache := s.dec.cache.store (f s.dec), prev := f s.dec,
        count := s.dec.count + 1 } }) := by
  by_cases hp : s.dec.phase = .body
  · rw [chunkStep_body hp] at h
    by_cases he : s.dec.count = s.dec.target
    · rw [Dec.emitPixel_overrun he] at h
      exact .inr (.inl ⟨hp, he, (Host.Outcome.next.inj h).symm⟩)
    · rw [Dec.emitPixel_ok he] at h
      exact .inr (.inr ⟨hp, he, (Host.Outcome.next.inj h).symm⟩)
  · rw [chunkStep_wait hp] at h
    exact .inl ⟨hp, (Host.Outcome.next.inj h).symm⟩

/-! ### DEC's step -/

/-- What DEC's step is, by phase: the start step, its refusal, waiting, or what the fetch says. -/
theorem decStep_start {s : State} (h : s.dec.phase.takesStart = true) (hc : 0 < s.dec.cmd)
    (hd : s.dec.undrained = false) : decStep s = some (.next { s with dec := s.dec.start }) := by
  rw [decStep, if_pos h, if_neg (by omega), if_neg (by simp [hd])]

theorem decStep_undrained {s : State} (h : s.dec.phase.takesStart = true) (hc : 0 < s.dec.cmd)
    (hd : s.dec.undrained = true) : decStep s = some (.refused (.undrainedLaunch .dec)) := by
  rw [decStep, if_pos h, if_neg (by omega), if_pos hd]

theorem decStep_idle {s : State} (h : s.dec.phase.takesStart = true) (hc : s.dec.cmd = 0) : decStep s = none := by
  rw [decStep, if_pos h, if_pos hc]

theorem decStep_busy {s : State} (h : s.dec.phase.takesStart = false) :
    decStep s = match s.dec.fetch with
      | .wait => none
      | .error e offset => some (.next { s with dec := s.dec.raise e offset })
      | .item i => some (exec i s) := by
  unfold decStep
  exact if_neg (by simp [h])

end Sys2Proof.Machine
end

