-- ==== Sys2Proof/Laws/Encoder.lean ====
section
/-! SUPPORT. What the operations of ENC can do: one specification lemma for each. -/

namespace Sys2Proof.Machine

/-! ### Lengths and run bytes -/

@[simp] theorem encode_run_length (n : Nat) : (encode (.run n)).length = 1 := rfl

@[simp] theorem encode_index_length (i : CacheIndex) : (encode (.index i)).length = 1 := rfl

/-- The byte of `RUN(k + 1)` is `0xC0 + k` while `k` fits six bits (30_encoding R95). -/
theorem encode_run_succ {k : Nat} (h : k < 64) : encode (.run (k + 1)) = [BitVec.ofNat 8 (0xC0 + k)] := by
  have key : ∀ j : Fin 64, (0xC0#8 ||| BitVec.ofNat 8 j.val) = BitVec.ofNat 8 (0xC0 + j.val) := by decide
  simpa [encode] using key ⟨k, h⟩

/-- A literal chunk has at most five bytes, and at most four when alpha is kept (43_chunk_encoder R190). -/
theorem literalChunk_length (prev c : Color) :
    (encode (literalChunk prev c)).length ≤ 5 ∧ (c.a = prev.a → (encode (literalChunk prev c)).length ≤ 4) := by
  unfold literalChunk
  split
  · dsimp only
    split
    · simp [encode]
    · split <;> simp [encode]
  · next h => exact ⟨by simp [encode], fun e => absurd e h⟩

/-- The chosen chunk has at most five bytes (43_chunk_encoder R190). -/
theorem chooseChunk_length (m : Cache) (prev c : Color) : (encode (chooseChunk m prev c)).length ≤ 5 := by
  unfold chooseChunk
  split
  · simp
  · exact (literalChunk_length prev c).1

/-- The chosen chunk is a well-formed chunk (43_chunk_encoder R177, R178). -/
theorem chooseChunk_wellFormed (m : Cache) (prev c : Color) :
    (chooseChunk m prev c).region = .chunks ∧ (chooseChunk m prev c).WellFormed := by
  unfold chooseChunk
  split
  · exact ⟨rfl, trivial⟩
  · unfold literalChunk
    split
    · dsimp only
      split
      · next h => exact ⟨rfl, h⟩
      · split
        · next h => exact ⟨rfl, h.2.1, h.1, h.2.2⟩
        · exact ⟨rfl, trivial⟩
    · exact ⟨rfl, trivial⟩

/-- After a changed pixel its slot holds it and the others are as before, hit or miss (41_color_cache R136). -/
theorem lookup_cacheAfterChange (m : Cache) (c : Color) (i : CacheIndex) :
    (cacheAfterChange m c).lookup i = if i = colorHash c then c else m.lookup i := by
  unfold cacheAfterChange
  split
  · next h => rw [← Cache.lookup_store_eq, Cache.store_of_hit h]
  · rw [Cache.lookup_store_eq]

/-! ### The branches of the pixel step -/

/-- The bytes a pending run is flushed to (43_chunk_encoder R174). -/
theorem pendingRun_eq (x : Enc) (h : x.run.toNat ≠ 0) : x.pendingRun = encode (.run x.run.toNat) := by
  obtain ⟨k, hk⟩ := Nat.exists_eq_succ_of_ne_zero h
  have hlt : k < 64 := by have := x.run.isLt; omega
  rw [Enc.pendingRun, if_neg h, hk, encode_run_succ hlt]
  rfl

/-- A changed pixel (43_chunk_encoder R174 to R180): the pending run, then the cache, then the chosen chunk. -/
theorem Enc.encodeChange_eq (c : Color) (x : Enc) :
    x.encodeChange c = { x with
      byteOut := x.byteOut ++ (x.pendingRun ++ encode (chooseChunk x.cache x.prev c))
      opos := x.opos + (x.pendingRun ++ encode (chooseChunk x.cache x.prev c)).length
      run := 0
      cache := cacheAfterChange x.cache c } := by
  unfold Enc.encodeChange
  by_cases h : x.run.toNat = 0
  · have h0 : x.run = 0 := BitVec.eq_of_toNat_eq h
    have hp : x.pendingRun = [] := by rw [Enc.pendingRun, if_pos h]
    rw [hp]
    simp only [h, Nat.lt_irrefl, if_false, Enc.emit, Enc.memWrite, List.nil_append]
    rw [← h0]
  · rw [if_pos (by omega), pendingRun_eq x h]
    simp [Enc.flushRun, Enc.emit, Enc.memWrite, List.append_assoc, Nat.add_assoc]

/-- An equal pixel that flushes nothing (43_chunk_encoder R173). -/
theorem Enc.lengthenRun_keep {x : Enc} (h : x.run.toNat ≠ 61) : x.lengthenRun false = { x with run := x.run + 1 } := by
  have h' : ¬ (x.run + 1 = 62) := by
    intro e
    apply h
    have := congrArg BitVec.toNat e
    have := x.run.isLt
    simp at *
    omega
  simp only [Enc.lengthenRun, h', Bool.false_eq_true, or_self, if_false]

/-- An equal pixel that fills the run or is the last (43_chunk_encoder R173). -/
theorem Enc.lengthenRun_flush {x : Enc} {last : Bool} (hr : x.run.toNat ≤ 61) (h : x.run.toNat = 61 ∨ last = true) :
    x.lengthenRun last = { x with
      byteOut := x.byteOut ++ [BitVec.ofNat 8 (0xC0 + x.run.toNat)], opos := x.opos + 1, run := 0 } := by
  have hn : (x.run + 1).toNat = x.run.toNat + 1 := by
    rw [BitVec.toNat_add]
    simp
    omega
  have hc : x.run + 1 = 62 ∨ last = true := by
    refine h.imp (fun e => BitVec.eq_of_toNat_eq ?_) id
    rw [hn, e]
    rfl
  simp only [Enc.lengthenRun, if_pos hc, Enc.flushRun, Enc.emit, Enc.memWrite, hn, encode_run_length]
  rw [encode_run_succ (by omega)]

/-! ### The pixel step -/

/-- What the branch of a pixel writes besides `prev` and `count`. -/
def Enc.branch (x : Enc) (chunks : List Byte) (run : BitVec 6) (cache : Cache) : Enc :=
  { x with byteOut := x.byteOut ++ chunks, opos := x.opos + chunks.length, run := run, cache := cache }

/-- The pixel step around a branch (43_chunk_encoder R172, R181, R182). -/
theorem Enc.pixelStep_effect {x : Enc} {c p : Color} {rest : List (Marked Color)} {chunks : List Byte} {run : BitVec 6}
    {cache : Cache} (hp : x.phase = .body) (hc : c = forceAlpha x.channels p)
    (h : (if c = x.prev then Enc.lengthenRun (decide (x.count + 1 = x.target)) { x with pixIn := rest }
        else Enc.encodeChange c { x with pixIn := rest })
      = Enc.branch { x with pixIn := rest } chunks run cache) :
    x.PixelEffect c chunks run cache rest (Enc.pixelStep p { x with pixIn := rest }) := by
  have he : Enc.encodePixel c { x with pixIn := rest }
      = { Enc.branch { x with pixIn := rest } chunks run cache with prev := c, count := x.count + 1 } := by
    simp only [Enc.encodePixel, h]
    rfl
  simp only [Enc.pixelStep, ← hc, he]
  split
  · next hl =>
    have hl' : x.count + 1 = x.target := hl
    constructor <;> simp [hl', Enc.branch, List.append_assoc, Nat.add_assoc]
  · next hl =>
    have hl' : ¬ x.count + 1 = x.target := hl
    constructor <;> simp [hl', Enc.branch, hp]

/-- Everything a pixel step can do: lengthen the run, flush it, or write the chunk of a changed pixel (43_chunk_encoder
R172). -/
theorem Enc.pixelStep_cases {x : Enc} {p : Color} {rest : List (Marked Color)} (hp : x.phase = .body) (hr : x.run.toNat ≤ 61) :
    let c := forceAlpha x.channels p
    let y := Enc.pixelStep p { x with pixIn := rest }
    (c = x.prev ∧ x.run.toNat < 61 ∧ x.count + 1 ≠ x.target ∧ x.PixelEffect c [] (x.run + 1) x.cache rest y)
    ∨ (c = x.prev ∧ (x.run.toNat = 61 ∨ x.count + 1 = x.target)
        ∧ x.PixelEffect c [BitVec.ofNat 8 (0xC0 + x.run.toNat)] 0 x.cache rest y)
    ∨ (c ≠ x.prev ∧ x.PixelEffect c (x.pendingRun ++ encode (chooseChunk x.cache x.prev c)) 0
        (cacheAfterChange x.cache c) rest y) := by
  dsimp only
  by_cases he : forceAlpha x.channels p = x.prev
  · by_cases hf : x.run.toNat = 61 ∨ x.count + 1 = x.target
    · refine .inr (.inl ⟨he, hf, Enc.pixelStep_effect hp rfl ?_⟩)
      rw [if_pos he, Enc.lengthenRun_flush (x := { x with pixIn := rest }) (by simpa using hr) (by simpa using hf)]
      rfl
    · refine .inl ⟨he, by omega, by tauto, Enc.pixelStep_effect hp rfl ?_⟩
      rw [if_pos he, decide_eq_false (by tauto), Enc.lengthenRun_keep (by tauto)]
      simp [Enc.branch]
  · refine .inr (.inr ⟨he, Enc.pixelStep_effect hp rfl ?_⟩)
    rw [if_neg he, Enc.encodeChange_eq]
    rfl

/-! ### ENC's step -/

theorem encStep_busy {s : State} {p : Marked Color} {rest : List (Marked Color)} (hp : s.enc.phase = .body)
    (hc : s.enc.count ≠ s.enc.target) (hi : s.enc.pixIn = p :: rest) :
    encStep s = some (.next { s with enc := Enc.pixelStep p.token { s.enc with pixIn := rest } }) := by
  rw [encStep, if_neg (by rw [hp]; decide), if_neg hc]
  simp only [hi]

theorem encStep_start {s : State} {c : EncCommand} {rest : List EncCommand} (hp : s.enc.phase.takesStart = true)
    (hc : s.enc.cmd = c :: rest) (hd : s.enc.undrained = false) :
    encStep s = some (.next { s with enc := Enc.start s.cfg c { s.enc with cmd := rest } }) := by
  rw [encStep, if_pos hp]
  simp [hc, hd]

theorem encStep_undrained {s : State} {c : EncCommand} {rest : List EncCommand} (hp : s.enc.phase.takesStart = true)
    (hc : s.enc.cmd = c :: rest) (hd : s.enc.undrained = true) :
    encStep s = some (.refused (.undrainedLaunch .enc)) := by
  rw [encStep, if_pos hp]
  simp [hc, hd]

/-- ENC between operations with no command waiting has no step (10_state R46). -/
theorem encStep_idle {s : State} (hp : s.enc.phase.takesStart = true) (hc : s.enc.cmd = []) : encStep s = none := by
  rw [encStep, if_pos hp, hc]

end Sys2Proof.Machine
end

