-- ==== Sys2Proof/Laws/Fetch.lean ====
section
/-! SUPPORT. DEC's fetch (42_chunk_decoder R141, R143) on ports of a known shape. -/

namespace Sys2Proof.Machine

/-- A chunk is decoded from its own bytes alone (30_encoding R99). -/
theorem decodeChunk_own_bytes {op : Byte} {tl rest : List Byte} {i : Instr}
    (h : decodeChunk (op :: tl) = .ok (i, rest)) :
    chunkLength op ≤ (op :: tl).length ∧ decodeChunk ((op :: tl).take (chunkLength op)) = .ok (i, []) := by
  simp only [decodeChunk] at h
  cases hk : chunkKind op <;> simp only [hk] at h <;> simp only [chunkLength, hk, kindLength]
  · match tl, h with
    | _ :: _ :: _ :: _ :: _, h => cases h; exact ⟨by simp, by simp [decodeChunk, hk]⟩
  · match tl, h with
    | _ :: _ :: _ :: _, h => cases h; exact ⟨by simp, by simp [decodeChunk, hk]⟩
  · cases h; exact ⟨by simp, by simp [decodeChunk, hk]⟩
  · match tl, h with
    | _ :: _, h => cases h; exact ⟨by simp, by simp [decodeChunk, hk]⟩
  · cases h; exact ⟨by simp, by simp [decodeChunk, hk]⟩
  · cases h; exact ⟨by simp, by simp [decodeChunk, hk]⟩

/-- A complete chunk on the port is fetched. -/
theorem fetchChunk_item {d : Dec} {bytes rest : List Byte} {more : List InToken} {i : Instr}
    (hb : d.stream = bytes.map .byte ++ more) (h : decode .chunks bytes = .ok (i, rest)) :
    fetchChunk d = .item i := by
  match bytes, h with
  | op :: tl, h =>
    obtain ⟨hl, hd⟩ := decodeChunk_own_bytes h
    have h1 : memRead 1 d.stream = .bytes [op] := by
      rw [hb, memRead_take (by simp)]
      rfl
    have h2 : memRead (chunkLength op) d.stream = .bytes ((op :: tl).take (chunkLength op)) := by
      rw [hb, memRead_take hl]
    simp only [fetchChunk, h1, List.headD_cons, h2, decode, hd]

/-- An `eos` at the opcode position or inside the payload (42_chunk_decoder R152). -/
theorem fetchChunk_eos {d : Dec} {bytes : List Byte} {more : List InToken}
    (hb : d.stream = bytes.map .byte ++ .eos :: more)
    (h : ∀ op tl, bytes = op :: tl → bytes.length < chunkLength op) :
    fetchChunk d = .error .truncatedStream d.ipos := by
  match bytes with
  | [] => simp only [fetchChunk, hb, List.map_nil, List.nil_append, memRead]
  | op :: tl =>
    have h1 : memRead 1 d.stream = .bytes [op] := by
      rw [hb, memRead_take (by simp)]
      rfl
    have h2 : memRead (chunkLength op) d.stream = .eos := by
      rw [hb, memRead_eos (h op tl rfl)]
    simp only [fetchChunk, h1, List.headD_cons, h2]

/-- A chunk that has not arrived (10_state R46). -/
theorem fetchChunk_wait {d : Dec} {bytes : List Byte} (hb : d.stream = bytes.map .byte)
    (h : ∀ op tl, bytes = op :: tl → bytes.length < chunkLength op) : fetchChunk d = .wait := by
  match bytes with
  | [] => simp only [fetchChunk, hb, List.map_nil, memRead]
  | op :: tl =>
    have h1 : memRead 1 d.stream = .bytes [op] := by
      have := memRead_take (n := 1) (l := op :: tl) (by simp) []
      rw [List.append_nil] at this
      rw [hb, this]
      rfl
    have h2 : memRead (chunkLength op) d.stream = .wait := by
      rw [hb, memRead_wait (h op tl rfl)]
    simp only [fetchChunk, h1, List.headD_cons, h2]

/-- Fourteen bytes or more with a header record in front are fetched as that header. -/
theorem fetchHeader_item {d : Dec} {bytes rest : List Byte} {more : List InToken} {i : Instr}
    (hb : d.stream = bytes.map .byte ++ more) (h : decode .header bytes = .ok (i, rest)) :
    fetchHeader d = .item i := by
  simp only [decode] at h
  unfold decodeHeaderRecord at h
  split at h
  · rename_i m0 m1 m2 m3 w0 w1 w2 w3 h0 h1 h2 h3 ch cs rest'
    have hr : memRead headerBytes d.stream = .bytes [m0, m1, m2, m3, w0, w1, w2, w3, h0, h1, h2, h3, ch, cs] := by
      rw [hb, memRead_take (by simp [headerBytes])]
      rfl
    split at h
    · next hm =>
      cases h
      simp only [fetchHeader, hr, decode, decodeHeaderRecord, if_pos hm]
    · cases h
  · cases h

/-- Everything a fetch of a chunk can find (42_chunk_decoder R143): it waits, it is TruncatedStreamError at the opcode
position, or it is the chunk whose encoding stands at the head of the port. -/
theorem fetchChunk_cases (d : Dec) :
    fetchChunk d = .wait ∨ fetchChunk d = .error .truncatedStream d.ipos
    ∨ ∃ i bytes, fetchChunk d = .item i ∧ decode .chunks bytes = .ok (i, [])
        ∧ d.stream = bytes.map .byte ++ d.stream.drop bytes.length := by
  unfold fetchChunk
  cases h1 : memRead 1 d.stream with
  | wait => exact .inl rfl
  | eos => exact .inr (.inl rfl)
  | bytes opl =>
    dsimp only
    cases h2 : memRead (chunkLength (opl.headD 0)) d.stream with
    | wait => exact .inl rfl
    | eos => exact .inr (.inl rfl)
    | bytes l =>
      dsimp only
      obtain ⟨hl, hp⟩ := eq_of_memRead_bytes h2
      cases hd : decode .chunks l with
      | error e => exact .inr (.inl rfl)
      | ok r =>
        obtain ⟨i, rest⟩ := r
        have hrest : rest = [] := by
          obtain ⟨h1l, h1p⟩ := eq_of_memRead_bytes h1
          match opl, h1l with
          | [op], _ =>
            match l, hd with
            | op' :: tl, hd =>
              have e : op' = op := by
                have := hp.symm.trans h1p
                simp only [List.map_cons, List.map_nil, List.cons_append, List.cons.injEq, InToken.byte.injEq] at this
                exact this.1
              subst e
              obtain ⟨-, hown⟩ := decodeChunk_own_bytes hd
              have : (op' :: tl).take (chunkLength op') = op' :: tl := List.take_of_length_le (le_of_eq hl)
              rw [this] at hown
              simp only [decode] at hd
              rw [hown] at hd
              cases hd
              rfl
        subst hrest
        exact .inr (.inr ⟨i, l, rfl, hd, by rw [hl]; exact hp⟩)

/-- Everything a fetch of the header can find (42_chunk_decoder R141, 60_exceptions R219). -/
theorem fetchHeader_cases (d : Dec) :
    fetchHeader d = .wait ∨ fetchHeader d = .error .truncatedStream 0 ∨ fetchHeader d = .error .formatError 0
    ∨ ∃ w h ch cs bytes, fetchHeader d = .item (.header w h ch cs) ∧ bytes.length = headerBytes
        ∧ decode .header bytes = .ok (.header w h ch cs, [])
        ∧ d.stream = bytes.map .byte ++ d.stream.drop headerBytes := by
  unfold fetchHeader
  cases h1 : memRead headerBytes d.stream with
  | wait => exact .inl rfl
  | eos => exact .inr (.inl rfl)
  | bytes l =>
    dsimp only
    obtain ⟨hl, hp⟩ := eq_of_memRead_bytes h1
    match l, hl with
    | [m0, m1, m2, m3, w0, w1, w2, w3, h0, h1, h2, h3, ch, cs], _ =>
      by_cases hm : [m0, m1, m2, m3] = magic
      · exact .inr (.inr (.inr ⟨u32 w0 w1 w2 w3, u32 h0 h1 h2 h3, ch, cs, _, by simp only [decode, decodeHeaderRecord, if_pos hm], rfl,
          by simp only [decode, decodeHeaderRecord, if_pos hm], hp⟩))
      · exact .inr (.inr (.inl (by simp only [decode, decodeHeaderRecord, if_neg hm, headerError])))

/-! ### The fetch of a phase -/

theorem Dec.fetch_body {d : Dec} (h : d.phase = .body) : d.fetch = fetchChunk d := by
  rw [Dec.fetch, h]

theorem Dec.fetch_header {d : Dec} (h : d.phase = .header) : d.fetch = fetchHeader d := by
  rw [Dec.fetch, h]

end Sys2Proof.Machine
end

