-- ==== Sys2Proof/Laws/Invariant.lean ====
section
/-! SUPPORT. The invariant of Safety.lean under the parts of a step: the cache operations, a fault entry, the end of a chunk,
a start, and the ports. -/

namespace Sys2Proof.Machine

/-! ### The cache (41_color_cache R135) -/

theorem Cache.consistent_clear : Cache.clear.Consistent := fun i h => absurd (Cache.lookup_clear i) h

theorem Cache.Consistent.store {m : Cache} (h : m.Consistent) (c : Color) : (m.store c).Consistent := by
  intro i hi
  rw [Cache.lookup_store_eq] at hi ⊢
  split
  · next e => exact e.symm
  · next e => exact h i (by rwa [if_neg e] at hi)

theorem Cache.Consistent.afterChange {m : Cache} (h : m.Consistent) (c : Color) :
    (cacheAfterChange m c).Consistent := by
  unfold cacheAfterChange
  split
  · exact h
  · exact h.store c

/-! ### Parts of a step of DEC -/

/-- A fault entry at DEC's position meets the invariant whatever came before (10_state R29). -/
theorem Dec.inv_raise {cfg : Config} {d : Dec} {e : ErrorKind} {offset : Nat} (h : offset = d.ipos) :
    (d.raise e offset).Inv cfg := ⟨⟨e, rfl⟩, h, rfl⟩

/-- The end of a chunk of `len` bytes that emitted `n` pixels. -/
theorem Dec.inv_finishChunk {cfg : Config} {d d' : Dec} {len n : Nat} (hl : d.Latched cfg) (hp : d.phase = .body)
    (hc : d.count + n ≤ d.target) (hlen : len ≤ 5 * n) (hphase : d'.phase = d.phase) (hw : d'.width = d.width)
    (hh : d'.height = d.height) (hch : d'.channels = d.channels) (ht : d'.target = d.target)
    (hpos : d'.ipos = d.ipos) (hcount : d'.count = d.count + n) (hcache : d'.cache.Consistent) :
    (d'.finishChunk len).Inv cfg := by
  have hL : (d'.finishChunk len).Latched cfg := by
    obtain ⟨h1, h2, h3, h4, h5, -⟩ := hl
    constructor
    · simp [ht, hw, hh, h1]
    · simp [ht, h2]
    · simp only [Dec.finishChunk_channels, hch, h3]
    · simp [hpos]; omega
    · simp [hpos, hcount]; omega
    · simpa using hcache
  have hphase' := Dec.finishChunk_phase len d'
  by_cases he : d'.count = d'.target
  · rw [if_pos he] at hphase'
    rw [Dec.Inv, hphase']
    exact ⟨hL, by simpa using he⟩
  · rw [if_neg he, hphase, hp] at hphase'
    rw [Dec.Inv, hphase']
    exact ⟨hL, by simp only [Dec.finishChunk_count, Dec.finishChunk_target]; omega⟩

/-! ### Parts of a step of ENC -/

/-- ENC's start step ends within the invariant from any state (43_chunk_encoder R171, R185). -/
theorem Enc.inv_start (cfg : Config) (c : EncCommand) (x : Enc) : (Enc.start cfg c x).Inv cfg := by
  unfold Enc.start
  dsimp only
  split
  · exact ⟨.inl rfl, rfl, rfl⟩
  · next hch =>
    split
    · exact ⟨.inr rfl, rfl, rfl⟩
    · next hm =>
      have hlen : (encode (.header c.width c.height c.channels c.colorspace)).length = 14 := rfl
      split
      · refine ⟨⟨rfl, ?_, not_not.1 hch, fun _ => rfl, Cache.consistent_clear⟩, ?_, rfl, ?_⟩
        · simp at *; omega
        · simp at *; omega
        · simp at *; simp [hlen]
      · refine ⟨⟨rfl, ?_, not_not.1 hch, fun _ => rfl, Cache.consistent_clear⟩, ?_, ?_, ?_, ?_⟩
        · simp at *; omega
        · simp at *; omega
        · simp
        · simp
        · simp [hlen]

/-! ### The ports are no part of the invariant -/

theorem Enc.inv_ports {cfg : Config} {x : Enc} (h : x.Inv cfg) (cmd : List EncCommand) (pixIn : List (Marked Color))
    (byteOut : List Byte) (stat : List EncStatus) :
    Enc.Inv cfg { x with cmd := cmd, pixIn := pixIn, byteOut := byteOut, stat := stat } := by
  have hL : x.Latched cfg → Enc.Latched cfg { x with cmd := cmd, pixIn := pixIn, byteOut := byteOut, stat := stat } :=
    fun ⟨h1, h2, h3, h4, h5⟩ => ⟨h1, h2, h3, h4, h5⟩
  unfold Enc.Inv at h ⊢
  cases hp : x.phase <;> rw [hp] at h <;> dsimp only [hp] at h ⊢
  · exact ⟨by have := hL h.1; rwa [hp] at this, h.2⟩
  · exact ⟨by have := hL h.1; rwa [hp] at this, h.2⟩
  · exact h

theorem Dec.inv_ports {cfg : Config} {d : Dec} (h : d.Inv cfg) (cmd : Nat) (byteIn : List (Marked InToken))
    (pixOut : List Color) (stat : List DecStatus) :
    Dec.Inv cfg { d with cmd := cmd, byteIn := byteIn, pixOut := pixOut, stat := stat } := by
  have hL : d.Latched cfg → Dec.Latched cfg { d with cmd := cmd, byteIn := byteIn, pixOut := pixOut, stat := stat } :=
    fun ⟨h1, h2, h3, h4, h5, h6⟩ => ⟨h1, h2, h3, h4, h5, h6⟩
  unfold Dec.Inv at h ⊢
  cases hp : d.phase <;> rw [hp] at h <;> dsimp only [hp] at h ⊢
  · exact h
  · exact ⟨by have := hL h.1; rwa [hp] at this, h.2⟩
  · exact ⟨by have := hL h.1; rwa [hp] at this, h.2⟩
  · exact h

end Sys2Proof.Machine
end

