-- ==== Sys2Proof/Laws/Step.lean ====
section
/-! SUPPORT. What one step of the machine can do, said once: the cases of `step`, of each engine's step and of the host's. -/

namespace Sys2Proof.Machine

/-- Every meaning answers a next state (30_encoding R102): a chunk of one pixel. -/
theorem chunkStep_next (len : Nat) (run : Dec → Except Dec Dec) (s : State) :
    ∃ d, chunkStep len run s = .next { s with dec := d } := by
  unfold chunkStep
  split
  · exact ⟨_, rfl⟩
  · exact ⟨s.dec, rfl⟩

/-- Every meaning of a chunk or a header answers a next state in which only DEC may differ. -/
theorem exec_onlyDec (i : Instr) (h : i ≠ .endMarker) (s : State) : ∃ d, exec i s = .next { s with dec := d } := by
  cases i with
  | rgba r g b a => exact chunkStep_next _ _ _
  | rgb r g b => exact chunkStep_next _ _ _
  | run n => exact chunkStep_next _ _ _
  | luma ddr dg ddb => exact chunkStep_next _ _ _
  | diff dr dg db => exact chunkStep_next _ _ _
  | index k => exact chunkStep_next _ _ _
  | header w hg ch cs =>
    simp only [exec, execHeader]
    split
    · exact ⟨_, rfl⟩
    · exact ⟨s.dec, rfl⟩
  | endMarker => exact absurd rfl h

/-- END answers a next state in which only ENC may differ. -/
theorem exec_endMarker_onlyEnc (s : State) : ∃ x, exec .endMarker s = .next { s with enc := x } := by
  simp only [exec, execEndMarker]
  split
  · exact ⟨_, rfl⟩
  · exact ⟨s.enc, rfl⟩

/-- What DEC fetches is never END (42_chunk_decoder R157). -/
theorem fetch_ne_endMarker {d : Dec} {i : Instr} (h : d.fetch = .item i) : i ≠ .endMarker := by
  unfold Dec.fetch at h
  split at h
  · rcases fetchHeader_cases d with e | e | e | ⟨w, hg, ch, cs, -, e, -⟩ <;> rw [e] at h <;> cases h
    exact Instr.noConfusion
  · rcases fetchChunk_cases d with e | e | ⟨j, bytes, e, hd, -⟩ <;> rw [e] at h <;> cases h
    rintro rfl
    simp only [decode] at hd
    unfold decodeChunk at hd
    split at hd
    · cases hd
    · split at hd
      · split at hd <;> cases hd
      · split at hd <;> cases hd
      · cases hd
      · split at hd <;> cases hd
      · cases hd
      · cases hd
  all_goals cases h

/-- DEC's step, when enabled, answers a next state in which only DEC may differ, or is a refused launch. -/
theorem decStep_onlyDec (s : State) :
    decStep s = none ∨ (∃ d, decStep s = some (.next { s with dec := d }))
      ∨ (decStep s = some (.refused (.undrainedLaunch .dec)) ∧ s.dec.LaunchRefused) := by
  cases hp : s.dec.phase.takesStart with
  | true =>
    by_cases hc : s.dec.cmd = 0
    · exact .inl (decStep_idle hp hc)
    · cases hd : s.dec.undrained with
      | false => exact .inr (.inl ⟨_, decStep_start hp (by omega) hd⟩)
      | true => exact .inr (.inr ⟨decStep_undrained hp (by omega) hd, hp, by omega, hd⟩)
  | false =>
    rw [decStep_busy hp]
    cases hf : s.dec.fetch with
    | wait => exact .inl rfl
    | error e o => exact .inr (.inl ⟨_, rfl⟩)
    | item i =>
      obtain ⟨d, hd⟩ := exec_onlyDec i (fetch_ne_endMarker hf) s
      exact .inr (.inl ⟨d, by simp only [hd]⟩)

/-- ENC's step, when enabled, answers a next state in which only ENC may differ, or is a refused launch. -/
theorem encStep_onlyEnc (s : State) :
    encStep s = none ∨ (∃ x, encStep s = some (.next { s with enc := x }))
      ∨ (encStep s = some (.refused (.undrainedLaunch .enc)) ∧ s.enc.LaunchRefused) := by
  cases hp : s.enc.phase.takesStart with
  | true =>
    cases hc : s.enc.cmd with
    | nil => exact .inl (encStep_idle hp hc)
    | cons c rest =>
      cases hd : s.enc.undrained with
      | false => exact .inr (.inl ⟨_, encStep_start hp hc hd⟩)
      | true => exact .inr (.inr ⟨encStep_undrained hp hc hd, hp, by simp [hc], hd⟩)
  | false =>
    unfold encStep
    rw [if_neg (by simp [hp])]
    split
    · obtain ⟨x, hx⟩ := exec_endMarker_onlyEnc s
      exact .inr (.inl ⟨x, by rw [hx]⟩)
    · split
      · exact .inl rfl
      · exact .inr (.inl ⟨_, rfl⟩)

/-- Any step an agent takes answers a next state, or is a refused launch. -/
theorem Agent.step_next (a : Agent) (s : State) :
    a.step s = none ∨ (∃ t, a.step s = some (.next t))
      ∨ (a.step s = some (.refused (.undrainedLaunch .dec)) ∧ s.dec.LaunchRefused)
      ∨ (a.step s = some (.refused (.undrainedLaunch .enc)) ∧ s.enc.LaunchRefused) := by
  cases a with
  | enc => exact (encStep_onlyEnc s).imp id (Or.imp (fun ⟨x, h⟩ => ⟨_, h⟩) .inr)
  | dec => exact (decStep_onlyDec s).imp id (Or.imp (fun ⟨d, h⟩ => ⟨_, h⟩) .inl)
  | host =>
    cases h : hostStep s with
    | none => exact .inl (by simp [Agent.step, h])
    | some t => exact .inr (.inl ⟨t, by simp [Agent.step, h]⟩)

/-- The cases of a step: a reset token, the step of some agent, or waiting. -/
theorem step_cases {s t : State} (h : step s = .next t) :
    (s.rst ≠ 0 ∧ t = s.takeReset) ∨ (∃ a : Agent, a.step s = some (.next t)) ∨ t = s := by
  unfold step at h
  split at h
  · unfold agentsStep at h
    split at h
    · next o ho => exact .inr (.inl ⟨_, by rw [ho, h]⟩)
    · split at h
      · next o ho => exact .inr (.inl ⟨_, by rw [ho, h]⟩)
      · split at h
        · next o ho => exact .inr (.inl ⟨_, by rw [ho, h]⟩)
        · exact .inr (.inr (Host.Outcome.next.inj h).symm)
  · next hr => exact .inl ⟨hr, (Host.Outcome.next.inj h).symm⟩

/-- The agent with precedence, when its step is enabled, is the one that steps. -/
theorem step_of_turn {s : State} {o : Host.Outcome State Fault Refusal} (hr : s.rst = 0)
    (h : s.turn.step s = some o) : step s = o := by
  simp only [step, hr, if_true, agentsStep, h]

/-- What an action of the host may change: the precedence, the reset port and the eight other ports (10_state R25, R40). -/
theorem HostAction.perform_ports {s u : State} {a : HostAction} (hu : a.perform s = some u) :
    u.cfg = s.cfg ∧ u.host = s.host
    ∧ u.enc = { s.enc with cmd := u.enc.cmd, pixIn := u.enc.pixIn, byteOut := u.enc.byteOut, stat := u.enc.stat }
    ∧ u.dec = { s.dec with
        cmd := u.dec.cmd, byteIn := u.dec.byteIn, pixOut := u.dec.pixOut, stat := u.dec.stat } := by
  cases a <;> simp only [HostAction.perform] at hu
  case takeByte =>
    obtain ⟨x, hx, rfl⟩ := Option.map_eq_some_iff.1 hu
    unfold Enc.takeByte at hx
    split at hx <;> cases hx
    exact ⟨rfl, rfl, rfl, rfl⟩
  case takePixel =>
    obtain ⟨x, hx, rfl⟩ := Option.map_eq_some_iff.1 hu
    unfold Dec.takePixel at hx
    split at hx <;> cases hx
    exact ⟨rfl, rfl, rfl, rfl⟩
  case takeEncStatus =>
    obtain ⟨x, hx, rfl⟩ := Option.map_eq_some_iff.1 hu
    unfold Enc.takeStatus at hx
    split at hx <;> cases hx
    exact ⟨rfl, rfl, rfl, rfl⟩
  case takeDecStatus =>
    obtain ⟨x, hx, rfl⟩ := Option.map_eq_some_iff.1 hu
    unfold Dec.takeStatus at hx
    split at hx <;> cases hx
    exact ⟨rfl, rfl, rfl, rfl⟩
  case dropPixel =>
    obtain ⟨x, hx, rfl⟩ := Option.map_eq_some_iff.1 hu
    unfold Enc.dropPixel at hx
    split at hx <;> cases hx
    exact ⟨rfl, rfl, rfl, rfl⟩
  case dropInput =>
    obtain ⟨x, hx, rfl⟩ := Option.map_eq_some_iff.1 hu
    unfold Dec.dropInput at hx
    split at hx <;> cases hx
    exact ⟨rfl, rfl, rfl, rfl⟩
  all_goals
    cases hu
    exact ⟨rfl, rfl, rfl, rfl⟩

end Sys2Proof.Machine
end

