-- ==== Sys2Proof/Laws/Operations.lean ====
section
/-! SUPPORT. Running one engine: a run that waits, a run that takes a step, and the reports of a finished engine. -/

namespace Sys2Proof.Machine

/-- What DEC reads after the launch of a decode (42_chunk_decoder R158). -/
theorem launchDecode_stream (cfg : Config) (bytes : List Byte) :
    (State.launchDecode cfg bytes).dec.stream = bytes.map .byte ++ [.eos] := by
  simp [State.launchDecode, Dec.stream, List.map_map, Function.comp_def]

/-- An agent whose step is not enabled waits for good. -/
theorem runAgent_stop {a : Agent} {s : State} (h : a.step s = none) (n : Nat) : runAgent a n s = s := by
  cases n <;> simp [runAgent, h]

/-- One step of a run. -/
theorem runAgent_next {a : Agent} {s t : State} (h : a.step s = some (.next t)) (n : Nat) :
    runAgent a (n + 1) s = runAgent a n t := by
  simp [runAgent, h]

/-- A DEC that is DONE with no command waiting reports its image, however long it runs (42_chunk_decoder R158). -/
theorem runAgent_dec_done {s : State} (hp : s.dec.phase = .done) (hc : s.dec.cmd = 0) (n : Nat) :
    (runAgent .dec n s).dec.result
      = some (.ok s.dec.width s.dec.height s.dec.channels s.dec.colorspace s.dec.pixOut s.dec.ipos) := by
  have h : Agent.step .dec s = none := decStep_idle (by rw [hp]; rfl) hc
  rw [runAgent_stop h]
  simp only [Dec.result, hp]

/-- An ENC that is DONE with no command waiting reports its bytes, however long it runs (43_chunk_encoder R188). -/
theorem runAgent_enc_done {s : State} (hp : s.enc.phase = .done) (hc : s.enc.cmd = []) (n : Nat) :
    (runAgent .enc n s).enc.result = some (.ok s.enc.byteOut) := by
  have h : Agent.step .enc s = none := encStep_idle (by rw [hp]; rfl) hc
  rw [runAgent_stop h]
  simp only [Enc.result, hp]

/-- DEC in BODY steps by the chunk whose bytes stand first on `byte_in` (42_chunk_decoder R143). -/
theorem decStep_chunk {s : State} {i : Instr} {bytes rest : List Byte} {more : List InToken} (hp : s.dec.phase = .body)
    (hb : s.dec.stream = bytes.map .byte ++ more) (h : decode .chunks bytes = .ok (i, rest)) :
    decStep s = some (exec i s) := by
  rw [decStep_busy (by rw [hp]; rfl), Dec.fetch_body hp, fetchChunk_item hb h]

/-- DEC in HEADER steps by the header whose bytes stand first on `byte_in` (42_chunk_decoder R141). -/
theorem decStep_header {s : State} {i : Instr} {bytes rest : List Byte} {more : List InToken} (hp : s.dec.phase = .header)
    (hb : s.dec.stream = bytes.map .byte ++ more) (h : decode .header bytes = .ok (i, rest)) :
    decStep s = some (exec i s) := by
  rw [decStep_busy (by rw [hp]; rfl), Dec.fetch_header hp, fetchHeader_item hb h]

end Sys2Proof.Machine
end

