-- ==== Sys2Proof/Laws/PerInstr.lean ====
section
/-! SUPPORT. The per-instruction family: an instruction's encoding has the length the spec gives it (30_encoding R90, R99;
44_header_codec R201, R203). -/

/-- The bytes written for an instruction are as many as its length. -/
def Sys2Proof.Laws.EncodedLength.Statement (i : Sys2Proof.Instr) : Prop := (Sys2Proof.encode i).length = i.length

theorem Sys2Proof.Laws.EncodedLength.rgba (r g b a : Sys2Proof.Byte) :
    Sys2Proof.Laws.EncodedLength.Statement (.rgba r g b a) := rfl

theorem Sys2Proof.Laws.EncodedLength.rgb (r g b : Sys2Proof.Byte) :
    Sys2Proof.Laws.EncodedLength.Statement (.rgb r g b) := rfl

theorem Sys2Proof.Laws.EncodedLength.run (n : Nat) : Sys2Proof.Laws.EncodedLength.Statement (.run n) := rfl

theorem Sys2Proof.Laws.EncodedLength.luma (ddr dg ddb : Int) :
    Sys2Proof.Laws.EncodedLength.Statement (.luma ddr dg ddb) := rfl

theorem Sys2Proof.Laws.EncodedLength.diff (dr dg db : Int) :
    Sys2Proof.Laws.EncodedLength.Statement (.diff dr dg db) := rfl

theorem Sys2Proof.Laws.EncodedLength.index (i : Sys2Proof.CacheIndex) :
    Sys2Proof.Laws.EncodedLength.Statement (.index i) := rfl

theorem Sys2Proof.Laws.EncodedLength.header (w h : Sys2Proof.Word32) (ch cs : Sys2Proof.Byte) :
    Sys2Proof.Laws.EncodedLength.Statement (.header w h ch cs) := rfl

theorem Sys2Proof.Laws.EncodedLength.endMarker : Sys2Proof.Laws.EncodedLength.Statement .endMarker := rfl
end

