-- ==== Sys2Proof/Tests/Slice0.lean ====
section
/-! SUPPORT. The model's own tests: ill-formed terms, words written out from the spec's encodings, single steps with the
results of spec/95_test_vectors.md, and a witness for the hypotheses of every statement. -/

namespace Sys2Proof.Tests
open Sys2Proof.Machine

/-! ### Helpers -/

/-- The state a step or a meaning answers, if any. -/
def after (o : Host.Outcome State Fault Refusal) : Option State :=
  match o with
  | .next s => some s
  | .fault _ => none
  | .refused _ => none

def black : Color := ⟨0, 0, 0, 255⟩
def red : Color := ⟨255, 0, 0, 255⟩
def gray : Color := ⟨100, 100, 100, 255⟩
def seven : Color := ⟨7, 7, 7, 255⟩

/-- DEC in a phase, with its counters, `prev`, cache and input port given; ENC as after reset; DEC has precedence. -/
def decAt (phase : DecPhase) (count target : Nat) (prev : Color) (cache : Cache) (port : List InToken) : State :=
  { State.reset with
    dec := { Dec.reset with
      phase := phase, count := count, target := target, prev := prev, cache := cache, byteIn := port.map (⟨·, 0⟩) } }

/-- ENC in BODY with its counters, `prev`, cache and pixels given; DEC as after reset; ENC has precedence. -/
def encAt (run : BitVec 6) (count target : Nat) (channels : Byte) (prev : Color) (cache : Cache) (pixels : List Color) :
    State :=
  { State.reset with
    turn := .enc
    enc := { Enc.reset with
      phase := .body, run := run, count := count, target := target, channels := channels, prev := prev, cache := cache,
      pixIn := pixels.map (⟨·, 0⟩) } }

/-- What ENC's step writes and how it leaves the run. -/
def encWrites (s : State) : Option (List Byte × BitVec 6) := (after (step s)).map fun t => (t.enc.byteOut, t.enc.run)

/-- What a meaning makes DEC emit. -/
def decEmits (i : Instr) (s : State) : Option (List Color) := (after (exec i s)).map fun t => t.dec.pixOut

/-! ### Well-formedness refuses each operand out of range (30_encoding R100, 44_header_codec R200) -/

theorem test_run_zero_is_ill_formed : ¬ Instr.WellFormed (.run 0) := by decide
theorem test_run_63_is_ill_formed : ¬ Instr.WellFormed (.run 63) := by decide
theorem test_luma_red_low : ¬ Instr.WellFormed (.luma (-9) 0 0) := by decide
theorem test_luma_red_high : ¬ Instr.WellFormed (.luma 8 0 0) := by decide
theorem test_luma_green_low : ¬ Instr.WellFormed (.luma 0 (-33) 0) := by decide
theorem test_luma_green_high : ¬ Instr.WellFormed (.luma 0 32 0) := by decide
theorem test_luma_blue_low : ¬ Instr.WellFormed (.luma 0 0 (-9)) := by decide
theorem test_luma_blue_high : ¬ Instr.WellFormed (.luma 0 0 8) := by decide
theorem test_diff_red_low : ¬ Instr.WellFormed (.diff (-3) 0 0) := by decide
theorem test_diff_red_high : ¬ Instr.WellFormed (.diff 2 0 0) := by decide
theorem test_diff_green_low : ¬ Instr.WellFormed (.diff 0 (-3) 0) := by decide
theorem test_diff_green_high : ¬ Instr.WellFormed (.diff 0 2 0) := by decide
theorem test_diff_blue_low : ¬ Instr.WellFormed (.diff 0 0 (-3)) := by decide
theorem test_diff_blue_high : ¬ Instr.WellFormed (.diff 0 0 2) := by decide
theorem test_header_two_channels : ¬ Instr.WellFormed (.header 1 1 2 0) := by decide
theorem test_header_five_channels : ¬ Instr.WellFormed (.header 1 1 5 0) := by decide

/-! ### Words written out from the spec's encodings -/

/-- R97: opcode byte FF, then r g b a. -/
theorem test_decode_rgba : decode .chunks [0b11111111, 1, 2, 3, 4] = .ok (.rgba 1 2 3 4, []) := by decide
/-- R96: opcode byte FE, then r g b. -/
theorem test_decode_rgb : decode .chunks [0b11111110, 1, 2, 3, 9] = .ok (.rgb 1 2 3, [9]) := by decide
/-- R95: tag 11, then run - 1. -/
theorem test_decode_run : decode .chunks [0b11000000] = .ok (.run 1, []) := by decide
/-- R94: tag 10, dg + 32; then ddr + 8 and ddb + 8. V-DEC-12. -/
theorem test_decode_luma : decode .chunks [0b10100101, 0b10011100] = .ok (.luma 1 5 4, []) := by decide
/-- R93: tag 01, then dr + 2, dg + 2, db + 2. V-ENC-3. -/
theorem test_decode_diff : decode .chunks [0b01110100] = .ok (.diff 1 (-1) (-2), []) := by decide
/-- R92: tag 00, then the index. -/
theorem test_decode_index : decode .chunks [0b00110101] = .ok (.index 53, []) := by decide
/-- V-HDR-6. -/
theorem test_decode_header :
    decode .header [0x71, 0x6F, 0x69, 0x66, 1, 2, 3, 4, 0x0A, 0x0B, 0x0C, 0x0D, 4, 0xFF]
      = .ok (.header 16909060 168496141 4 255, []) := by decide
/-- R203. -/
theorem test_decode_end : decode .trailer [0, 0, 0, 0, 0, 0, 0, 1] = .ok (.endMarker, []) := by decide
/-- R203, R226: what is not the end marker is refused by name. -/
theorem test_decode_not_end : decode .trailer [0, 0, 0, 0, 0, 0, 0, 2] = .error .notEndMarker := by decide
/-- R152: an RGBA chunk short of a byte is refused by name. -/
theorem test_decode_truncated : decode .chunks [0xFF, 1, 2, 3] = .error .truncated := by decide
/-- The extreme LUMA chunk, V-ENC-9. -/
theorem test_encode_luma : encode (.luma (-8) (-32) (-8)) = [0x80, 0x00] := by decide
/-- V-ENC-3. -/
theorem test_encode_diff : encode (.diff 1 (-1) (-2)) = [0x74] := by decide
/-- V-DEC-5. -/
theorem test_encode_run : encode (.run 62) = [0xFD] := by decide

/-! ### Byte primitives, hash, cache (95_test_vectors V-BYTE, V-HASH, V-CACHE) -/

/-- V-BYTE-7, V-BYTE-13. -/
theorem test_big_endian :
    be32 0x12345678 = [0x12, 0x34, 0x56, 0x78] ∧ u32 0x12 0x34 0x56 0x78 = 0x12345678 := by decide
/-- V-BYTE-15, V-BYTE-16. -/
theorem test_wrap8 : wrap8 (-1) = 255 ∧ wrap8 (-40) = 216 ∧ wrap8 (-1000) = 24 ∧ wrap8 293 = 37 := by decide
/-- V-HASH-2, V-HASH-3, V-HASH-9, V-HASH-17, V-HASH-19. -/
theorem test_hash :
    colorHash black = 53 ∧ colorHash ⟨255, 255, 255, 255⟩ = 38 ∧ colorHash ⟨63, 0, 0, 255⟩ = 50
      ∧ colorHash ⟨10, 20, 30, 128⟩ = 20 ∧ colorHash ⟨1, 2, 3, 4⟩ = 14 := by decide
/-- V-CACHE-1: a colliding store evicts. -/
theorem test_cache_evicts :
    ((Cache.clear.store red).store ⟨63, 0, 0, 255⟩).lookup 50 = ⟨63, 0, 0, 255⟩ := by decide

/-! ### The chunks as DEC executes them -/

/-- V-DEC-1. -/
theorem test_exec_rgba : decEmits (.rgba 16 32 48 64) (decAt .body 0 1 black Cache.clear []) = some [⟨16, 32, 48, 64⟩] := by
  decide
/-- V-DEC-1: the pixel is stored in slot 32. -/
theorem test_exec_rgba_stores :
    (after (exec (.rgba 16 32 48 64) (decAt .body 0 1 black Cache.clear []))).map (fun t => t.dec.cache.lookup 32)
      = some ⟨16, 32, 48, 64⟩ := by decide
/-- V-DEC-3: alpha 0 is inherited. -/
theorem test_exec_rgb : decEmits (.rgb 9 8 7) (decAt .body 1 2 ⟨1, 2, 3, 0⟩ Cache.clear []) = some [⟨9, 8, 7, 0⟩] := by
  decide
/-- V-DEC-4. -/
theorem test_exec_run : decEmits (.run 3) (decAt .body 0 3 black Cache.clear []) = some [black, black, black] := by decide
/-- V-ERR-20: a RUN of two with one place left. -/
theorem test_exec_run_overrun :
    (after (exec (.run 2) { decAt .body 1 2 black Cache.clear [] with
        dec := { (decAt .body 1 2 black Cache.clear []).dec with ipos := 15 } })).map
        (fun t => (t.dec.pixOut, t.dec.stat, t.dec.ipos))
      = some ([black], [.fault ⟨5, 15, 2⟩], 15) := by decide
/-- V-DEC-12: red and blue wrap. -/
theorem test_exec_luma : decEmits (.luma 1 5 4) (decAt .body 1 2 ⟨250, 10, 250, 255⟩ Cache.clear []) = some [⟨0, 15, 3, 255⟩] := by
  decide
/-- V-DEC-13: all three wrap below 0. -/
theorem test_exec_luma_low : decEmits (.luma (-8) (-32) (-8)) (decAt .body 0 1 black Cache.clear []) = some [⟨216, 224, 216, 255⟩] := by
  decide
/-- V-DEC-7. -/
theorem test_exec_diff : decEmits (.diff (-2) (-2) (-2)) (decAt .body 0 1 black Cache.clear []) = some [⟨254, 254, 254, 255⟩] := by
  decide
/-- V-DEC-9: a repeat is stored. -/
theorem test_exec_diff_stores :
    (after (exec (.diff 0 0 0) (decAt .body 0 1 black Cache.clear []))).map (fun t => t.dec.cache.lookup 53) = some black := by
  decide
/-- V-DEC-20: a hit. -/
theorem test_exec_index : decEmits (.index 50) (decAt .body 2 3 ⟨0, 0, 255, 255⟩ (Cache.clear.store red) []) = some [red] := by
  decide
/-- V-DEC-19: an INDEX of an empty slot evicts slot 0. -/
theorem test_exec_index_evicts :
    (after (exec (.index 5) (decAt .body 1 3 ⟨64, 0, 0, 0⟩ (Cache.clear.store ⟨64, 0, 0, 0⟩) []))).map
      (fun t => t.dec.cache.lookup 0) = some ⟨0, 0, 0, 0⟩ := by decide
/-- V-DEC-26: no pixel, done at 14. -/
theorem test_exec_header_empty :
    (after (exec (.header 7 0 4 0) (decAt .header 0 0 black Cache.clear []))).map (fun t => t.dec.stat)
      = some [.hdr 7 0 4 0, .done 14] := by decide
/-- V-ERR-11: 110 pixels where 100 are the limit. -/
theorem test_exec_header_too_large :
    (after (exec (.header 11 10 4 0) { decAt .header 0 0 black Cache.clear [] with cfg := ⟨100⟩ })).map
      (fun t => t.dec.stat) = some [.fault ⟨3, 0, 0⟩] := by decide
/-- R182: the end marker and `done`. -/
theorem test_exec_end :
    (after (exec .endMarker (encAt 0 1 1 4 black Cache.clear []))).map (fun t => (t.enc.byteOut, t.enc.stat))
      = some ([0, 0, 0, 0, 0, 0, 0, 1], [.done 8]) := by decide
/-- R157: DEC is as before. -/
theorem test_exec_end_leaves_dec :
    (after (exec .endMarker (encAt 0 1 1 4 black Cache.clear []))).map (fun t => t.dec) = some Dec.reset := by decide

/-! ### Steps of DEC and ENC -/

/-- V-ERR-3: length before magic. -/
theorem test_header_length_first :
    (after (step (decAt .header 0 0 black Cache.clear (List.replicate 13 (.byte 0) ++ [.eos])))).map
      (fun t => t.dec.stat) = some [.fault ⟨4, 0, 0⟩] := by decide
/-- V-ERR-9: magic before channels. -/
theorem test_header_magic_first :
    (after (step (decAt .header 0 0 black Cache.clear
        ([0, 0, 0, 0, 0, 0, 0, 1, 0, 0, 0, 1, 5, 0].map .byte)))).map (fun t => t.dec.stat)
      = some [.fault ⟨1, 0, 0⟩] := by decide
/-- V-ERR-17: `eos` after a LUMA opcode byte. -/
theorem test_chunk_truncated :
    (after (step (decAt .body 0 1 black Cache.clear [.byte 0xA0, .eos]))).map (fun t => t.dec.stat)
      = some [.fault ⟨4, 0, 0⟩] := by decide
/-- R46: a chunk that has not arrived leaves the machine waiting. -/
theorem test_chunk_waits : step (decAt .body 0 1 black Cache.clear [.byte 0xA0]) = .next (decAt .body 0 1 black Cache.clear [.byte 0xA0]) := by
  rfl
/-- V-DEC-22: the last pixel ends the operation. -/
theorem test_chunk_done :
    (after (step (decAt .body 0 1 black Cache.clear [.byte 0xC0]))).map (fun t => (t.dec.phase, t.dec.stat))
      = some (.done, [.done 1]) := by decide

/-- The run branch: V-ENC-28 (grows), V-ENC-30 (full), V-ENC-29 (last pixel, then END), V-ENC-34 (pending before RGBA: six
chunk bytes). -/
theorem test_enc_runs :
    encWrites (encAt 3 5 9 4 seven Cache.clear [seven]) = some ([], 4)
      ∧ encWrites (encAt 61 70 99 4 seven Cache.clear [seven]) = some ([0xFD], 0)
      ∧ encWrites (encAt 3 8 9 4 seven Cache.clear [seven]) = some ([0xC3, 0, 0, 0, 0, 0, 0, 0, 1], 0)
      ∧ encWrites (encAt 61 70 99 4 seven Cache.clear [⟨1, 2, 3, 4⟩]) = some ([0xFC, 0xFF, 1, 2, 3, 4], 0) := by decide
/-- The choice of a chunk: V-ENC-23 (INDEX before DIFF), V-ENC-2 (DIFF), V-ENC-5 (+2 is no DIFF), V-ENC-10 (LUMA),
V-ENC-17 (no wrap: RGB), V-ENC-42 (alpha forced for three channels). -/
theorem test_enc_choices :
    encWrites (encAt 0 1 9 4 ⟨254, 0, 0, 255⟩ (Cache.clear.store red) [red]) = some ([0x32], 0)
      ∧ encWrites (encAt 0 1 9 4 gray Cache.clear [⟨98, 98, 98, 255⟩]) = some ([0x40], 0)
      ∧ encWrites (encAt 0 1 9 4 gray Cache.clear [⟨102, 100, 100, 255⟩]) = some ([0xA0, 0xA8], 0)
      ∧ encWrites (encAt 0 1 9 4 gray Cache.clear [⟨138, 131, 138, 255⟩]) = some ([0xBF, 0xFF], 0)
      ∧ encWrites (encAt 0 1 9 4 ⟨255, 255, 255, 255⟩ Cache.clear [black]) = some ([0xFE, 0, 0, 0], 0)
      ∧ encWrites (encAt 0 0 2 3 black Cache.clear [⟨5, 5, 5, 0⟩]) = some ([0xA5, 0x88], 0) := by decide

/-- ENC with a start command waiting, and a limit. -/
def startAt (limit : Nat) (c : EncCommand) : State :=
  { State.reset with turn := .enc, cfg := ⟨limit⟩, enc := { Enc.reset with cmd := [c] } }

/-- V-ENC-40. -/
theorem test_enc_start_empty :
    (after (step (startAt 100 ⟨0, 0, 4, 0⟩))).map (fun t => (t.enc.byteOut, t.enc.stat))
      = some ([0x71, 0x6F, 0x69, 0x66, 0, 0, 0, 0, 0, 0, 0, 0, 4, 0, 0, 0, 0, 0, 0, 0, 0, 1], [.done 22]) := by decide
/-- V-ERR-33: channels before size. -/
theorem test_enc_start_channels_first :
    (after (step (startAt 100 ⟨0xFFFFFFFF, 0xFFFFFFFF, 1, 0⟩))).map (fun t => (t.enc.byteOut, t.enc.stat))
      = some ([], [.fault ⟨2, 0, 0⟩]) := by decide

/-- R38: a refused command is latched all the same. -/
theorem test_enc_start_latches_first :
    (after (step (startAt 100 ⟨101, 2, 4, 1⟩))).map (fun t => (t.enc.width, t.enc.height, t.enc.channels, t.enc.target))
      = some (101, 2, 4, 202) := by decide
/-- R247, U14: a DEC start is refused while a token of the operation before it is the oldest. -/
theorem test_dec_start_undrained :
    let s := { State.reset with
      dec := { Dec.reset with phase := .done, cmd := 1, launches := 1, byteIn := [⟨.eos, 0⟩, ⟨.byte 0x71, 1⟩] } }
    step s = .refused (.undrainedLaunch .dec) ∧ ((HostAction.dropInput.perform s).bind (after ∘ step)).map (·.dec.phase)
      = some .header := ⟨rfl, rfl⟩
/-- R222, R242, R246: after a fault, the leftovers removed and no `eos` ever put, the new stream may stand there first. -/
theorem test_dec_start_after_fault :
    (after (step { State.reset with
      dec := { Dec.reset with phase := .fault, cmd := 1, launches := 1, byteIn := [⟨.byte 0x71, 1⟩] } })).map (·.dec.phase)
      = some .header := rfl
/-- R247, U14: an ENC start is refused while a pixel of the operation before it is the oldest. -/
theorem test_enc_start_undrained :
    let x := { startAt 100 ⟨1, 1, 4, 0⟩ with
      enc := { (startAt 100 ⟨1, 1, 4, 0⟩).enc with launches := 1, pixIn := [⟨red, 0⟩, ⟨gray, 1⟩] } }
    step x = .refused (.undrainedLaunch .enc) ∧ ((HostAction.dropPixel.perform x).bind (after ∘ step)).map (·.enc.phase)
      = some .body := ⟨rfl, rfl⟩
/-- R185, R249: an image without a pixel starts and ends while the pixel of the next queued command waits, and so does that
command then. -/
theorem test_enc_start_empty_before_next :
    let x := { startAt 100 ⟨0, 5, 4, 0⟩ with
      enc := { (startAt 100 ⟨0, 5, 4, 0⟩).enc with cmd := [⟨0, 5, 4, 0⟩, ⟨1, 1, 4, 0⟩], pixIn := [⟨red, 1⟩] } }
    (after (step x)).map (fun t => (t.enc.phase, t.enc.stat, t.enc.pixIn)) = some (.done, [.done 22], [⟨red, 1⟩])
      ∧ ((after (step x)).bind (after ∘ step)).map (·.enc.phase) = some .body := by decide

/-! ### Table words run as the first instruction after reset -/

theorem test_table_words :
    decodeTableWord 8 0x35 = some (.index 53) ∧ decodeTableWord 8 0x6A = some (.diff 0 0 0)
      ∧ decodeTableWord 8 0xA0 = some (.luma (-8) 0 (-8)) ∧ decodeTableWord 8 0xC0 = some (.run 1)
      ∧ decodeTableWord 8 0xFE = some (.rgb 0 0 0) ∧ decodeTableWord 8 0xFF = some (.rgba 0 0 0 0)
      ∧ decodeTableWord 32 0x716F6966 = some (.header 0 0 0 0) ∧ decodeTableWord 64 1 = some .endMarker := by decide
/-- With two bytes given, the second byte is bits 15..8. -/
theorem test_table_word_two_bytes : decodeTableWord 16 0x9CA5 = some (.luma 1 5 4) := by decide
theorem test_fetch_word_chunk :
    step (State.reset.withFetchWord 8 0xC0) = exec (.run 1) (State.reset.withFetchWord 8 0xC0) := by rfl
theorem test_fetch_word_header :
    step (State.reset.withFetchWord 32 0x716F6966)
      = exec (.header 0 0 0 0) (State.reset.withFetchWord 32 0x716F6966) := by rfl
theorem test_fetch_word_end :
    step (State.reset.withFetchWord 64 1) = exec .endMarker (State.reset.withFetchWord 64 1) := by rfl

/-! ### Witnesses: states and operands that meet the hypotheses of each statement -/

/-- ENC in the middle of an image of two pixels, DEC with its header read. -/
def midway : State :=
  { encAt 1 1 2 4 black Cache.clear [red] with
    enc := { (encAt 1 1 2 4 black Cache.clear [red]).enc with width := 2, height := 1, opos := 14 }
    dec := { (decAt .body 0 2 black Cache.clear [.byte 0xC1]).dec with
      width := 2, height := 1, channels := 3, ipos := 14 } }

theorem midway_inv : midway.Inv :=
  ⟨⟨⟨rfl, by decide, by decide, by decide, Cache.consistent_clear⟩, by decide, by decide, by decide, by decide⟩,
    ⟨⟨rfl, by decide, by decide, by decide, by decide, Cache.consistent_clear⟩, by decide⟩⟩

theorem witness_DecodeOfEncode :
    Instr.WellFormed (.run 1) ∧ Instr.WellFormed (.run 62) ∧ Instr.WellFormed (.luma (-8) (-32) (-8))
      ∧ Instr.WellFormed (.luma 7 31 7) ∧ Instr.WellFormed (.diff (-2) (-2) (-2)) ∧ Instr.WellFormed (.diff 1 1 1)
      ∧ Instr.WellFormed (.header 0 0 3 0) ∧ Instr.WellFormed (.header 0xFFFFFFFF 0xFFFFFFFF 4 255)
      ∧ Instr.WellFormed .endMarker := by decide
theorem witness_EncodeOfDecodedChunk : decode .chunks [0xFD, 7] = .ok (.run 62, [7]) := by decide
theorem witness_EveryOpcodeByteDecodes :
    chunkLength 0xFF ≤ [(1 : Byte), 2, 3, 4].length + 1 ∧ [(1 : Byte), 2, 3].length + 1 < chunkLength 0xFF := by decide
theorem witness_HeaderRoundTrip : LegalChannels 3 ∧ LegalChannels 4 := by decide

/-- The three cases of a 14-byte header. -/
theorem witness_HeaderChecksInOrder_magic :
    let bytes : List Byte := [0x71, 0x6F, 0x69, 0x67, 0, 0, 0, 1, 0, 0, 0, 1, 4, 0]
    bytes.length = 14 ∧ bytes.take 4 ≠ [0x71, 0x6F, 0x69, 0x66] := by decide
theorem witness_HeaderChecksInOrder_channels :
    let bytes : List Byte := [0x71, 0x6F, 0x69, 0x66, 0, 0, 0, 1, 0, 0, 0, 1, 5, 0]
    bytes.length = 14 ∧ bytes.take 4 = [0x71, 0x6F, 0x69, 0x66] ∧ bytes[12]? ≠ some 3 ∧ bytes[12]? ≠ some 4 := by decide
theorem witness_HeaderChecksInOrder_ok :
    let bytes : List Byte := [0x71, 0x6F, 0x69, 0x66, 0, 0, 0, 1, 0, 0, 0, 1, 3, 0]
    bytes.length = 14 ∧ bytes.take 4 = [0x71, 0x6F, 0x69, 0x66] ∧ (bytes[12]? = some 3 ∨ bytes[12]? = some 4) := by decide

/-- DEC in BODY with one pixel to go: RGBA, RGB, LUMA, DIFF, INDEX, and the lockstep of one pixel. -/
theorem witness_onePixel :
    let s := decAt .body 0 1 black Cache.clear []
    s.dec.phase = .body ∧ s.dec.count < s.dec.target := by decide
theorem witness_RgbaEmitsItsColor :
    let s := decAt .body 0 1 black Cache.clear []
    s.dec.phase = .body ∧ s.dec.count < s.dec.target := witness_onePixel
theorem witness_RgbInheritsAlpha :
    let s := decAt .body 0 1 black Cache.clear []
    s.dec.phase = .body ∧ s.dec.count < s.dec.target := witness_onePixel
theorem witness_LumaMovesChannels :
    let s := decAt .body 0 1 black Cache.clear []
    s.dec.phase = .body ∧ s.dec.count < s.dec.target := witness_onePixel
theorem witness_DiffMovesChannels :
    let s := decAt .body 0 1 black Cache.clear []
    s.dec.phase = .body ∧ s.dec.count < s.dec.target := witness_onePixel
theorem witness_IndexEmitsItsSlot :
    let s := decAt .body 0 1 black Cache.clear []
    s.dec.phase = .body ∧ s.dec.count < s.dec.target := witness_onePixel

/-- Both clauses: slot 50 holds red, slot 5 nothing. -/
theorem witness_IndexStoreIsVisibleOnlyInSlotZero :
    let s := decAt .body 0 2 black (Cache.clear.store red) []
    s.dec.phase = .body ∧ s.dec.count < s.dec.target ∧ s.dec.cache.Consistent
      ∧ (∃ t, exec (.index 50) s = .next t) ∧ s.dec.cache.lookup 50 ≠ ⟨0, 0, 0, 0⟩
      ∧ (∃ t, exec (.index 5) s = .next t) ∧ s.dec.cache.lookup 5 = ⟨0, 0, 0, 0⟩ :=
  ⟨rfl, by decide, Cache.consistent_clear.store red, ⟨_, rfl⟩, by decide, ⟨_, rfl⟩, by decide⟩
theorem witness_RunRepeatsPrevious :
    let s := decAt .body 1 63 black Cache.clear []
    Instr.WellFormed (.run 62) ∧ Instr.WellFormed (.run 1) ∧ s.dec.phase = .body ∧ s.dec.count + 62 ≤ s.dec.target
      ∧ s.dec.count + 1 ≤ s.dec.target := by decide
theorem witness_RunPastTargetOverruns :
    let s := decAt .body 0 1 black Cache.clear []
    s.dec.phase = .body ∧ s.dec.count < s.dec.target ∧ s.dec.target < s.dec.count + 2 := by decide
theorem witness_ChunkFrame :
    ∃ t, Instr.region (.rgb 1 2 3) = .chunks ∧ exec (.rgb 1 2 3) (decAt .body 0 1 black Cache.clear []) = .next t :=
  ⟨_, rfl, rfl⟩
theorem witness_ItemsWaitOutsideTheirPhase :
    Instr.region (.index 0) = .chunks ∧ State.reset.dec.phase ≠ .body ∧ State.reset.dec.phase ≠ .header := by decide

/-- With a limit of 100, 10 x 10 is just accepted and 0 x 7 has no pixel. -/
theorem witness_HeaderAccepted :
    let s := { decAt .header 0 0 black Cache.clear [] with cfg := ⟨100⟩ }
    s.dec.phase = .header ∧ LegalChannels 3 ∧ (10 : Word32).toNat * (10 : Word32).toNat ≤ s.cfg.maxPixels
      ∧ (0 : Word32).toNat * (7 : Word32).toNat ≤ s.cfg.maxPixels := by decide
theorem witness_HeaderRejected :
    let s := { decAt .header 0 0 black Cache.clear [] with cfg := ⟨100⟩ }
    s.dec.phase = .header ∧ ¬ LegalChannels 5 ∧ LegalChannels 4
      ∧ s.cfg.maxPixels < (101 : Word32).toNat * (1 : Word32).toNat := by decide
theorem witness_EndMarkerEndsTheEncode :
    let s := encAt 0 1 1 4 black Cache.clear []
    s.enc.phase = .body ∧ s.enc.count = s.enc.target := by decide
theorem witness_EndMarkerElsewhereDoesNothing :
    State.reset.enc.phase ≠ .body ∧ (encAt 0 0 1 4 black Cache.clear []).enc.count
      ≠ (encAt 0 0 1 4 black Cache.clear []).enc.target := by decide
theorem witness_StepRunsTheDecodedChunk :
    let s := decAt .body 0 1 black Cache.clear [.byte 0xC0, .eos]
    s.rst = 0 ∧ s.turn = .dec ∧ s.dec.phase = .body ∧ s.dec.stream = [0xC0].map .byte ++ [.eos]
      ∧ decode .chunks [0xC0] = .ok (.run 1, []) := by decide
theorem witness_StepRunsTheDecodedHeader :
    let bytes : List Byte := [0x71, 0x6F, 0x69, 0x66, 0, 0, 0, 1, 0, 0, 0, 1, 4, 0]
    let s := decAt .header 0 0 black Cache.clear (bytes.map .byte ++ [.eos])
    s.rst = 0 ∧ s.turn = .dec ∧ s.dec.phase = .header ∧ s.dec.stream = bytes.map .byte ++ [.eos]
      ∧ decode .header bytes = .ok (.header 1 1 4 0, []) := by decide
theorem witness_HeaderStepFaults_short :
    let bytes : List Byte := List.replicate 13 0
    let s := decAt .header 0 0 black Cache.clear (bytes.map .byte ++ .eos :: [])
    s.rst = 0 ∧ s.turn = .dec ∧ s.dec.phase = .header ∧ bytes.length < 14
      ∧ s.dec.stream = bytes.map .byte ++ .eos :: [] := by decide
theorem witness_HeaderStepFaults_magic :
    let bytes : List Byte := List.replicate 14 0
    let s := decAt .header 0 0 black Cache.clear (bytes.map .byte ++ [])
    s.rst = 0 ∧ s.turn = .dec ∧ s.dec.phase = .header ∧ bytes.length = 14
      ∧ s.dec.stream = bytes.map .byte ++ [] ∧ bytes.take 4 ≠ [0x71, 0x6F, 0x69, 0x66] := by decide

/-- No byte at all, and an RGBA chunk short of one. -/
theorem witness_ChunkStepTruncated_opcode :
    let s := decAt .body 0 1 black Cache.clear (([] : List Byte).map .byte ++ .eos :: [])
    s.rst = 0 ∧ s.turn = .dec ∧ s.dec.phase = .body ∧ s.dec.stream = ([] : List Byte).map .byte ++ .eos :: []
      ∧ ∀ op tail, ([] : List Byte) = op :: tail → ([] : List Byte).length < chunkLength op :=
  ⟨rfl, rfl, rfl, rfl, fun _ _ h => nomatch h⟩
theorem witness_ChunkStepTruncated_payload :
    let bytes : List Byte := [0xFF, 1, 2, 3]
    let s := decAt .body 0 1 black Cache.clear (bytes.map .byte ++ .eos :: [])
    s.rst = 0 ∧ s.turn = .dec ∧ s.dec.phase = .body ∧ s.dec.stream = bytes.map .byte ++ .eos :: []
      ∧ ∀ op tail, bytes = op :: tail → bytes.length < chunkLength op := by
  refine ⟨rfl, rfl, rfl, rfl, fun op tail h => ?_⟩
  cases h
  decide
theorem witness_DecWaitsForBytes_header :
    let bytes : List Byte := List.replicate 13 0
    let s := decAt .header 0 0 black Cache.clear (bytes.map .byte)
    s.dec.stream = bytes.map .byte ∧ s.dec.phase = .header ∧ bytes.length < 14 := by decide
theorem witness_DecWaitsForBytes_body :
    let bytes : List Byte := [0xFE, 1, 2]
    let s := decAt .body 0 1 black Cache.clear (bytes.map .byte)
    s.dec.stream = bytes.map .byte ∧ s.dec.phase = .body
      ∧ ∀ op tail, bytes = op :: tail → bytes.length < chunkLength op := by
  refine ⟨rfl, rfl, fun op tail h => ?_⟩
  cases h
  decide
theorem witness_EnginesWaitForTokens :
    State.reset.dec.phase = .idle ∧ State.reset.dec.cmd = 0 ∧ State.reset.enc.phase = .idle ∧ State.reset.enc.cmd = []
      ∧ (encAt 0 0 1 4 black Cache.clear []).enc.phase = .body
      ∧ (encAt 0 0 1 4 black Cache.clear []).enc.count < (encAt 0 0 1 4 black Cache.clear []).enc.target
      ∧ (encAt 0 0 1 4 black Cache.clear []).enc.pixIn = [] ∧ State.reset.rst = 0
      ∧ decStep State.reset = none ∧ encStep State.reset = none ∧ hostStep State.reset = none :=
  ⟨rfl, rfl, rfl, rfl, rfl, by decide, rfl, rfl, rfl, rfl, rfl⟩

/-- DEC after an operation that left the end marker's last byte and `eos`, ENC with a surplus pixel of its first image: the
right sides of both equivalences, and a refused step. -/
theorem witness_UndrainedLaunchIsRefused :
    let s := { State.reset with
      dec := { Dec.reset with phase := .done, cmd := 1, launches := 1, byteIn := [⟨.byte 1, 0⟩, ⟨.eos, 0⟩] } }
    let u := { startAt 100 ⟨1, 1, 4, 0⟩ with
      enc := { (startAt 100 ⟨1, 1, 4, 0⟩).enc with launches := 1, pixIn := [⟨red, 0⟩] } }
    s.rst = 0 ∧ s.dec.phase.takesStart = true ∧ 0 < s.dec.cmd
      ∧ s.dec.byteIn = ⟨.byte 1, 0⟩ :: [⟨.eos, 0⟩] ∧ (⟨.byte 1, 0⟩ : Marked InToken).op < s.dec.launches
      ∧ u.enc.phase.takesStart = true ∧ u.enc.cmd ≠ []
      ∧ u.enc.pixIn = ⟨red, 0⟩ :: [] ∧ (⟨red, 0⟩ : Marked Color).op < u.enc.launches
      ∧ s.turn.step s = some (.refused (.undrainedLaunch .dec)) :=
  ⟨rfl, rfl, by decide, rfl, by decide, rfl, by decide, rfl, by decide, rfl⟩

/-- On an empty port, and with the data put before the command (R242). -/
theorem witness_DecStartInitialises :
    let s := { State.reset with dec := { Dec.reset with cmd := 1 } }
    let u := { State.reset with dec := { Dec.reset with cmd := 1, byteIn := [⟨.byte 0x71, 0⟩, ⟨.eos, 0⟩] } }
    s.rst = 0 ∧ s.turn = .dec ∧ s.dec.phase.takesStart = true ∧ 0 < s.dec.cmd ∧ s.dec.undrained = false
      ∧ u.rst = 0 ∧ u.turn = .dec ∧ u.dec.phase.takesStart = true ∧ 0 < u.dec.cmd ∧ u.dec.undrained = false := by decide
theorem witness_DecStartForgetsThePast :
    let d := { Dec.reset with cmd := 1 }
    let d' := { Dec.reset with
      cmd := 1, phase := .fault, prev := red, count := 9, ipos := 20, fault := ⟨4, 20, 9⟩ }
    d.phase.takesStart = true ∧ d'.phase.takesStart = true ∧ d'.cmd = d.cmd ∧ d'.byteIn = d.byteIn
      ∧ d'.pixOut = d.pixOut ∧ d'.stat = d.stat ∧ d'.launches = d.launches ∧ d'.free = d.free ∧ d ≠ d' := by decide
theorem witness_BusyEngineLeavesItsCommand :
    (decAt .body 0 1 black Cache.clear [.byte 0xC0]).dec.phase.takesStart = false
      ∧ (∃ t, decStep (decAt .body 0 1 black Cache.clear [.byte 0xC0]) = some (.next t))
      ∧ (encAt 0 0 1 4 black Cache.clear [red]).enc.phase.takesStart = false
      ∧ ∃ t, encStep (encAt 0 0 1 4 black Cache.clear [red]) = some (.next t) :=
  ⟨rfl, ⟨_, rfl⟩, rfl, ⟨_, rfl⟩⟩

/-- An image of the largest accepted size, and one with no pixel while the pixel of the next queued command waits. -/
theorem witness_EncStartAccepted :
    let s := startAt 100 ⟨10, 10, 4, 0⟩
    let u := { startAt 100 ⟨0, 5, 4, 0⟩ with
      enc := { (startAt 100 ⟨0, 5, 4, 0⟩).enc with cmd := [⟨0, 5, 4, 0⟩, ⟨1, 1, 4, 0⟩], pixIn := [⟨red, 1⟩] } }
    s.rst = 0 ∧ s.turn = .enc ∧ s.enc.phase.takesStart = true ∧ s.enc.cmd = ⟨10, 10, 4, 0⟩ :: []
      ∧ s.enc.undrained = false
      ∧ LegalChannels 4 ∧ (10 : Word32).toNat * (10 : Word32).toNat ≤ s.cfg.maxPixels
      ∧ u.rst = 0 ∧ u.turn = .enc ∧ u.enc.phase.takesStart = true ∧ u.enc.cmd = ⟨0, 5, 4, 0⟩ :: [⟨1, 1, 4, 0⟩]
      ∧ u.enc.undrained = false ∧ (0 : Word32).toNat * (5 : Word32).toNat ≤ u.cfg.maxPixels := by decide
/-- Refused channels, and a legal command one pixel over the limit: each state meets every hypothesis. -/
theorem witness_EncStartRejected :
    let s := startAt 100 ⟨1, 1, 5, 0⟩
    let u := startAt 100 ⟨101, 1, 4, 0⟩
    (s.rst = 0 ∧ s.turn = .enc ∧ s.enc.phase.takesStart = true ∧ s.enc.cmd = ⟨1, 1, 5, 0⟩ :: [] ∧ s.enc.undrained = false
        ∧ (¬ LegalChannels 5 ∨ s.cfg.maxPixels < (1 : Word32).toNat * (1 : Word32).toNat))
      ∧ (u.rst = 0 ∧ u.turn = .enc ∧ u.enc.phase.takesStart = true ∧ u.enc.cmd = ⟨101, 1, 4, 0⟩ :: []
        ∧ u.enc.undrained = false
        ∧ (¬ LegalChannels 4 ∨ u.cfg.maxPixels < (101 : Word32).toNat * (1 : Word32).toNat)) := by decide
theorem witness_EqualPixelLengthensRun :
    let s := encAt 60 70 72 4 seven Cache.clear [seven]
    s.EncReady ⟨seven, 0⟩ [] ∧ forceAlpha s.enc.channels seven = s.enc.prev ∧ s.enc.run.toNat < 61
      ∧ s.enc.count + 1 < s.enc.target :=
  ⟨⟨rfl, rfl, rfl, by decide, rfl⟩, by decide, by decide, by decide⟩

/-- The full run, and the last pixel. -/
theorem witness_FullOrLastRunIsFlushed_full :
    let s := encAt 61 70 72 4 seven Cache.clear [seven]
    s.EncReady ⟨seven, 0⟩ [] ∧ forceAlpha s.enc.channels seven = s.enc.prev ∧ s.enc.run.toNat ≤ 61
      ∧ s.enc.run.toNat = 61 :=
  ⟨⟨rfl, rfl, rfl, by decide, rfl⟩, by decide, by decide, by decide⟩
theorem witness_FullOrLastRunIsFlushed_last :
    let s := encAt 0 70 71 4 seven Cache.clear [seven]
    s.EncReady ⟨seven, 0⟩ [] ∧ forceAlpha s.enc.channels seven = s.enc.prev ∧ s.enc.run.toNat ≤ 61
      ∧ s.enc.count + 1 = s.enc.target :=
  ⟨⟨rfl, rfl, rfl, by decide, rfl⟩, by decide, by decide, by decide⟩
theorem witness_HitIsWrittenAsIndex :
    let s := encAt 1 1 9 4 seven (Cache.clear.store red) [red]
    s.EncReady ⟨red, 0⟩ [] ∧ red = forceAlpha s.enc.channels red ∧ red ≠ s.enc.prev
      ∧ s.enc.cache.lookup (colorHash red) = red :=
  ⟨⟨rfl, rfl, rfl, by decide, rfl⟩, by decide, by decide, by decide⟩

/-- V-ENC-2, all three deltas at the low end of DIFF. -/
theorem witness_SmallDeltaIsWrittenAsDiff :
    let s := encAt 0 1 9 4 gray Cache.clear [⟨98, 98, 98, 255⟩]
    s.EncReady ⟨⟨98, 98, 98, 255⟩, 0⟩ [] ∧ (⟨98, 98, 98, 255⟩ : Color) = forceAlpha s.enc.channels ⟨98, 98, 98, 255⟩
      ∧ (⟨98, 98, 98, 255⟩ : Color) ≠ s.enc.prev
      ∧ s.enc.cache.lookup (colorHash ⟨98, 98, 98, 255⟩) ≠ ⟨98, 98, 98, 255⟩ ∧ (255 : Byte) = s.enc.prev.a
      ∧ (-2 : Int) = ((98 : Byte).toNat : Int) - s.enc.prev.r.toNat ∧ FitsDiff (-2) (-2) (-2) :=
  ⟨⟨rfl, rfl, rfl, by decide, rfl⟩, by decide, by decide, by decide, by decide, by decide, by decide⟩

/-- V-ENC-10, the largest LUMA chunk. -/
theorem witness_MediumDeltaIsWrittenAsLuma :
    let s := encAt 0 1 9 4 gray Cache.clear [⟨138, 131, 138, 255⟩]
    s.EncReady ⟨⟨138, 131, 138, 255⟩, 0⟩ []
      ∧ (⟨138, 131, 138, 255⟩ : Color) = forceAlpha s.enc.channels ⟨138, 131, 138, 255⟩
      ∧ (⟨138, 131, 138, 255⟩ : Color) ≠ s.enc.prev
      ∧ s.enc.cache.lookup (colorHash ⟨138, 131, 138, 255⟩) ≠ ⟨138, 131, 138, 255⟩ ∧ (255 : Byte) = s.enc.prev.a
      ∧ (38 : Int) = ((138 : Byte).toNat : Int) - s.enc.prev.r.toNat
      ∧ (31 : Int) = ((131 : Byte).toNat : Int) - s.enc.prev.g.toNat
      ∧ ¬ FitsDiff 38 31 38 ∧ FitsLuma (38 - 31) 31 (38 - 31) :=
  ⟨⟨rfl, rfl, rfl, by decide, rfl⟩, by decide, by decide, by decide, by decide, by decide, by decide, by decide, by decide⟩

/-- V-ENC-12 (RGB: `dg` one too large) and V-ENC-21 (RGBA: alpha off by one). -/
theorem witness_OtherPixelsAreWrittenRaw_rgb :
    let s := encAt 0 1 9 4 gray Cache.clear [⟨132, 132, 132, 255⟩]
    s.EncReady ⟨⟨132, 132, 132, 255⟩, 0⟩ []
      ∧ (⟨132, 132, 132, 255⟩ : Color) = forceAlpha s.enc.channels ⟨132, 132, 132, 255⟩
      ∧ (⟨132, 132, 132, 255⟩ : Color) ≠ s.enc.prev
      ∧ s.enc.cache.lookup (colorHash ⟨132, 132, 132, 255⟩) ≠ ⟨132, 132, 132, 255⟩ ∧ (255 : Byte) = s.enc.prev.a
      ∧ (32 : Int) = ((132 : Byte).toNat : Int) - s.enc.prev.r.toNat
      ∧ ¬ FitsDiff 32 32 32 ∧ ¬ FitsLuma (32 - 32) 32 (32 - 32) :=
  ⟨⟨rfl, rfl, rfl, by decide, rfl⟩, by decide, by decide, by decide, by decide, by decide, by decide, by decide⟩
theorem witness_OtherPixelsAreWrittenRaw_rgba :
    let s := encAt 0 1 9 4 ⟨10, 20, 30, 255⟩ Cache.clear [⟨11, 20, 30, 254⟩]
    s.EncReady ⟨⟨11, 20, 30, 254⟩, 0⟩ [] ∧ (⟨11, 20, 30, 254⟩ : Color) = forceAlpha s.enc.channels ⟨11, 20, 30, 254⟩
      ∧ (⟨11, 20, 30, 254⟩ : Color) ≠ s.enc.prev
      ∧ s.enc.cache.lookup (colorHash ⟨11, 20, 30, 254⟩) ≠ ⟨11, 20, 30, 254⟩ ∧ (254 : Byte) ≠ s.enc.prev.a :=
  ⟨⟨rfl, rfl, rfl, by decide, rfl⟩, by decide, by decide, by decide, by decide⟩
theorem witness_ThreeChannelsStayOpaque :
    black.a = 255 ∧ chooseChunk (Cache.clear.store red) black (forceAlpha 3 ⟨255, 0, 0, 9⟩) = .index 50 := by decide

theorem witness_ResetTokenIdlesBothEngines : 0 < { encAt 0 0 1 4 black Cache.clear [red] with rst := 1 }.rst := by decide
theorem witness_HostWritesNoRegister : ∃ t, hostStep { State.reset with host := [.putReset] } = some t := ⟨_, rfl⟩
/-- Ports with a token to take or remove, empty ones, and a busy DEC; the host with an action and without. -/
theorem witness_HostActionsOnPorts :
    let s := { State.reset with
      enc := { Enc.reset with byteOut := [0x71, 0x6F], stat := [.done 22], pixIn := [⟨red, 0⟩] }
      dec := { Dec.reset with phase := .done, pixOut := [red], stat := [.done 14], byteIn := [⟨.byte 1, 0⟩, ⟨.eos, 0⟩] } }
    s.enc.byteOut = 0x71 :: [0x6F] ∧ s.dec.pixOut = red :: [] ∧ s.enc.stat = .done 22 :: [] ∧ s.dec.stat = .done 14 :: []
      ∧ s.enc.phase ≠ .body ∧ s.enc.pixIn = ⟨red, 0⟩ :: [] ∧ s.dec.phase ≠ .header ∧ s.dec.phase ≠ .body
      ∧ s.dec.byteIn = ⟨.byte 1, 0⟩ :: [⟨.eos, 0⟩]
      ∧ State.reset.enc.byteOut = [] ∧ State.reset.dec.pixOut = [] ∧ State.reset.enc.stat = [] ∧ State.reset.dec.stat = []
      ∧ (encAt 0 0 1 4 black Cache.clear [red]).enc.phase = .body ∧ State.reset.enc.pixIn = []
      ∧ (decAt .header 0 0 black Cache.clear []).dec.phase = .header ∧ midway.dec.phase = .body ∧ State.reset.dec.byteIn = []
      ∧ State.reset.host = [] ∧ { State.reset with host := [.putReset] }.host = .putReset :: [] := by decide
theorem witness_EnginesShareNothing :
    (∃ t, encStep (encAt 0 0 1 4 black Cache.clear [red]) = some (.next t))
      ∧ ∃ t, decStep (decAt .body 0 1 black Cache.clear [.byte 0xC0]) = some (.next t) := ⟨⟨_, rfl⟩, ⟨_, rfl⟩⟩

theorem witness_StepKeepsInvariant : midway.Inv ∧ ∃ t, step midway = .next t := ⟨midway_inv, _, rfl⟩

/-- Both engines in BODY, both starting, a reset token, an action of the host. -/
theorem witness_PhasesMoveAlongTheTable :
    midway.Inv ∧ (∃ t, encStep midway = some (.next t)) ∧ (∃ t, decStep midway = some (.next t))
      ∧ (startAt 100 ⟨1, 1, 4, 0⟩).Inv ∧ (∃ t, encStep (startAt 100 ⟨1, 1, 4, 0⟩) = some (.next t))
      ∧ State.Inv { State.reset with dec := { Dec.reset with cmd := 1 } }
      ∧ (∃ t, decStep { State.reset with dec := { Dec.reset with cmd := 1 } } = some (.next t))
      ∧ 0 < { midway with rst := 1 }.rst ∧ (∃ t, step { midway with rst := 1 } = .next t)
      ∧ ∃ t, hostStep { midway with host := [.putReset] } = some t :=
  ⟨midway_inv, ⟨_, rfl⟩, ⟨_, rfl⟩, ⟨trivial, trivial⟩, ⟨_, rfl⟩, ⟨trivial, trivial⟩, ⟨_, rfl⟩,
    by decide, ⟨_, rfl⟩, ⟨_, rfl⟩⟩
theorem witness_ChosenChunkKeepsLockstep :
    midway.dec.phase = .body ∧ midway.dec.count < midway.dec.target ∧ midway.dec.cache = midway.enc.cache
      ∧ midway.dec.prev = midway.enc.prev ∧ red ≠ midway.enc.prev := by decide

/-- The three clauses: refused channels, one pixel over the limit, and just within it. -/
theorem witness_EncodeAlwaysEnds :
    [black].length = (1 : Word32).toNat * (1 : Word32).toNat ∧ ¬ LegalChannels 2 ∧ LegalChannels 4
      ∧ [black, black].length = (2 : Word32).toNat * (1 : Word32).toNat
      ∧ (⟨1⟩ : Config).maxPixels < (2 : Word32).toNat * (1 : Word32).toNat
      ∧ (1 : Word32).toNat * (1 : Word32).toNat ≤ (⟨1⟩ : Config).maxPixels := by decide
/-- E3: Scenario A. -/
theorem witness_DecodeOfEncodedImage :
    [black].length = (1 : Word32).toNat * (1 : Word32).toNat
      ∧ encodeImage ⟨1⟩ 1 1 3 0 [black]
        = some (.ok [0x71, 0x6F, 0x69, 0x66, 0, 0, 0, 1, 0, 0, 0, 1, 3, 0, 0xC0, 0, 0, 0, 0, 0, 0, 0, 1]) := by decide

end Sys2Proof.Tests
end

section
/-! PROOFS of the family of 00_scope: the engines share nothing (O52), and every step goes on (O53). -/

namespace Sys2Proof.Machine

/-! ### The engines share nothing (00_scope R6, 10_state R20)

Each lemma names what the stepping engine becomes BEFORE the other engine is given: one answer for every other engine. -/

/-- A chunk leaves DEC the same beside every ENC (42_chunk_decoder R143). -/
theorem chunkStep_forEveryEnc (len : Nat) (run : Dec → Except Dec Dec) (s : State) :
    ∃ d, ∀ x, chunkStep len run { s with enc := x } = .next { s with enc := x, dec := d } := by
  by_cases hp : s.dec.phase = .body
  · exact ⟨Dec.endChunk len (run s.dec), fun x => chunkStep_body (s := { s with enc := x }) hp len run⟩
  · exact ⟨s.dec, fun x => chunkStep_wait (s := { s with enc := x }) hp len run⟩

/-- Every chunk is executed by a chunk step (42_chunk_decoder R143). -/
theorem exec_eq_chunkStep {i : Instr} (h : i.region = .chunks) : ∃ len run, ∀ s, exec i s = chunkStep len run s := by
  cases i with
  | rgba r g b a => exact ⟨5, fun d => d.emitPixel ⟨r, g, b, a⟩ true, fun _ => rfl⟩
  | rgb r g b => exact ⟨4, fun d => d.emitPixel ⟨r, g, b, d.prev.a⟩ true, fun _ => rfl⟩
  | run n => exact ⟨1, fun d => d.emitRun n, fun _ => rfl⟩
  | luma ddr dg ddb => exact ⟨2, fun d => d.emitPixel (moveColor d.prev (ddr + dg) dg (ddb + dg)) true, fun _ => rfl⟩
  | diff dr dg db => exact ⟨1, fun d => d.emitPixel (moveColor d.prev dr dg db) true, fun _ => rfl⟩
  | index k => exact ⟨1, fun d => d.emitPixel (d.cache.lookup k) true, fun _ => rfl⟩
  | header w hg ch cs => cases h
  | endMarker => cases h

/-- A header leaves DEC the same beside every ENC (42_chunk_decoder R141). -/
theorem exec_header_forEveryEnc (w h : Word32) (ch cs : Byte) (s : State) :
    ∃ d, ∀ x, exec (.header w h ch cs) { s with enc := x } = .next { s with enc := x, dec := d } := by
  by_cases hp : s.dec.phase = .header
  · exact ⟨s.dec.acceptHeader s.cfg w h ch cs, fun x => by rw [exec, execHeader, if_pos hp]⟩
  · exact ⟨s.dec, fun x => by rw [exec, execHeader, if_neg hp]⟩

/-- Every item but END leaves DEC the same beside every ENC. -/
theorem exec_forEveryEnc {i : Instr} (hi : i ≠ .endMarker) (s : State) :
    ∃ d, ∀ x, exec i { s with enc := x } = .next { s with enc := x, dec := d } := by
  cases hr : i.region with
  | chunks =>
    obtain ⟨len, run, hrun⟩ := exec_eq_chunkStep hr
    simpa only [hrun] using chunkStep_forEveryEnc len run s
  | header =>
    cases i with
    | header w h ch cs => exact exec_header_forEveryEnc w h ch cs s
    | _ => cases hr
  | trailer =>
    cases i with
    | endMarker => exact absurd rfl hi
    | _ => cases hr

/-- END leaves ENC the same beside every DEC (43_chunk_encoder R182). -/
theorem exec_endMarker_forEveryDec (s : State) :
    ∃ x, ∀ d, exec .endMarker { s with dec := d } = .next { s with dec := d, enc := x } := by
  by_cases hp : s.enc.phase = .body ∧ s.enc.count = s.enc.target
  · exact ⟨s.enc.finish, fun d => by rw [exec, execEndMarker, if_pos hp]⟩
  · exact ⟨s.enc, fun d => by rw [exec, execEndMarker, if_neg hp]⟩

/-- An enabled step of DEC that is no refused launch leaves DEC the same beside every ENC, and leaves the ENC beside it. -/
theorem decStep_forEveryEnc {s t : State} (h : decStep s = some (.next t)) :
    ∃ d, ∀ x, decStep { s with enc := x } = some (.next { s with enc := x, dec := d }) := by
  cases hp : s.dec.phase.takesStart with
  | true =>
    by_cases hc : s.dec.cmd = 0
    · cases (decStep_idle hp hc).symm.trans h
    · cases hd : s.dec.undrained with
      | true => cases (decStep_undrained hp (by omega) hd).symm.trans h
      | false => exact ⟨s.dec.start, fun x => decStep_start (s := { s with enc := x }) hp (by dsimp only; omega) hd⟩
  | false =>
    have hbusy x := decStep_busy (s := { s with enc := x }) hp
    cases hf : s.dec.fetch with
    | wait => simp [decStep_busy hp, hf] at h
    | error e o => exact ⟨s.dec.raise e o, fun x => by simp only [hbusy, hf]⟩
    | item i =>
      obtain ⟨d, hd⟩ := exec_forEveryEnc (fetch_ne_endMarker hf) s
      exact ⟨d, fun x => by simp only [hbusy, hf, hd]⟩

/-- ENC past the last pixel of its image steps by END (43_chunk_encoder R182). -/
theorem encStep_endDue {s : State} (hp : s.enc.phase.takesStart = false) (hc : s.enc.count = s.enc.target) :
    encStep s = some (exec .endMarker s) := by
  rw [encStep, if_neg (by simp [hp]), if_pos hc]

/-- ENC with pixels to consume and none on its port waits (10_state R46). -/
theorem encStep_noPixel {s : State} (hp : s.enc.phase.takesStart = false) (hc : s.enc.count ≠ s.enc.target)
    (hi : s.enc.pixIn = []) : encStep s = none := by
  rw [encStep, if_neg (by simp [hp]), if_neg hc, hi]

/-- ENC does not take start commands in BODY alone (10_state R42). -/
theorem EncPhase.eq_body_of_busy {p : EncPhase} (h : p.takesStart = false) : p = .body := by
  cases p with
  | body => rfl
  | idle => cases h
  | done => cases h
  | fault => cases h

/-- An enabled step of ENC that is no refused launch leaves ENC the same beside every DEC, and leaves the DEC beside it. -/
theorem encStep_forEveryDec {s t : State} (h : encStep s = some (.next t)) :
    ∃ x, ∀ d, encStep { s with dec := d } = some (.next { s with dec := d, enc := x }) := by
  cases hp : s.enc.phase.takesStart with
  | true =>
    cases hc : s.enc.cmd with
    | nil => cases (encStep_idle hp hc).symm.trans h
    | cons c rest =>
      cases hd : s.enc.undrained with
      | true => cases (encStep_undrained hp hc hd).symm.trans h
      | false => exact ⟨Enc.start s.cfg c { s.enc with cmd := rest },
          fun d => encStep_start (s := { s with dec := d }) hp hc hd⟩
  | false =>
    by_cases hc : s.enc.count = s.enc.target
    · obtain ⟨x, hx⟩ := exec_endMarker_forEveryDec s
      exact ⟨x, fun d => by rw [encStep_endDue (s := { s with dec := d }) hp hc, hx]⟩
    · cases hi : s.enc.pixIn with
      | nil => cases (encStep_noPixel hp hc hi).symm.trans h
      | cons p rest =>
        have hb := EncPhase.eq_body_of_busy hp
        exact ⟨Enc.pixelStep p.token { s.enc with pixIn := rest },
          fun d => encStep_busy (s := { s with dec := d }) hb hc hi⟩

/-- Settles O52: each engine's step is one function of its own engine, read off at the engine beside it. -/
theorem enginesShareNothing : Obligations.EnginesShareNothing := by
  unfold Obligations.EnginesShareNothing
  intro s t
  constructor
  · intro h
    obtain ⟨x, hx⟩ := encStep_forEveryDec h
    cases h.symm.trans (hx s.dec)
    exact ⟨rfl, hx⟩
  · intro h
    obtain ⟨d, hd⟩ := decStep_forEveryEnc h
    cases h.symm.trans (hd s.enc)
    exact ⟨rfl, hd⟩

/-! ### Every step goes on (30_encoding R102, 10_state R46) -/

/-- The host changes no parameter (00_scope R5). -/
theorem hostStep_cfg {s t : State} (h : hostStep s = some t) : t.cfg = s.cfg := by
  unfold hostStep at h
  split at h
  · cases h
  · obtain ⟨u, hu, rfl⟩ := Option.map_eq_some_iff.1 h
    exact (HostAction.perform_ports hu).1

/-- No agent changes the parameter (00_scope R5). -/
theorem Agent.step_cfg {a : Agent} {s t : State} (h : a.step s = some (.next t)) : t.cfg = s.cfg := by
  cases a with
  | enc =>
    obtain ⟨x, hx⟩ := encStep_forEveryDec h
    cases h.symm.trans (hx s.dec)
    rfl
  | dec =>
    obtain ⟨d, hd⟩ := decStep_forEveryEnc h
    cases h.symm.trans (hd s.enc)
    rfl
  | host =>
    obtain ⟨u, hu, e⟩ := Option.map_eq_some_iff.1 h
    cases e
    exact hostStep_cfg hu

/-- No step changes the parameter (00_scope R5). -/
theorem step_cfg {s t : State} (h : step s = .next t) : t.cfg = s.cfg := by
  rcases step_cases h with ⟨-, rfl⟩ | ⟨a, ha⟩ | rfl
  · rfl
  · exact Agent.step_cfg ha
  · rfl

/-- With no reset token waiting, the machine's outcome is that of some agent's enabled step, or it waits (10_state R46). -/
theorem agentsStep_cases (s : State) :
    (∃ a : Agent, a.step s = some (agentsStep s)) ∨ agentsStep s = .next s := by
  unfold agentsStep
  split
  · next o ho => exact .inl ⟨_, ho⟩
  · split
    · next o ho => exact .inl ⟨_, ho⟩
    · split
      · next o ho => exact .inl ⟨_, ho⟩
      · exact .inr rfl

/-- A step answers a next state, or refuses a launch that 93 U14 says to refuse. -/
theorem step_next_or_refused (s : State) :
    (∃ t, step s = .next t)
    ∨ (step s = .refused (.undrainedLaunch .dec) ∧ s.dec.LaunchRefused)
    ∨ (step s = .refused (.undrainedLaunch .enc) ∧ s.enc.LaunchRefused) := by
  by_cases hr : s.rst = 0
  · have hs : step s = agentsStep s := if_pos hr
    rw [hs]
    rcases agentsStep_cases s with ⟨a, ha⟩ | hw
    · have hnext := Agent.step_next a s
      rw [ha] at hnext
      simpa using hnext
    · exact .inl ⟨s, hw⟩
  · exact .inl ⟨s.takeReset, if_neg hr⟩

/-- Settles O53: totality is the cases of a step, and the parameter is in no agent's reach. -/
theorem everyStepGoesOn : Obligations.EveryStepGoesOn := by
  unfold Obligations.EveryStepGoesOn
  intro s
  exact (step_next_or_refused s).imp_left fun ⟨t, ht⟩ => ⟨t, ht, step_cfg ht⟩

end Sys2Proof.Machine
end

section
/-! PROOFS of the family of 10_state: what one step of each agent leaves in the registers and on the ports, the table of
phases, and the invariant of both engines. -/

namespace Sys2Proof.Machine

/-! ### What a chunk leaves of DEC (42_chunk_decoder R142 to R151) -/

theorem Dec.ChunkFrame.refl (d : Dec) : d.ChunkFrame d := ⟨rfl, rfl, rfl, rfl, rfl, rfl, rfl, rfl⟩

theorem Dec.ChunkFrame.raise {d d' : Dec} (h : d.ChunkFrame d') (e : ErrorKind) (offset : Nat) :
    d.ChunkFrame (d'.raise e offset) :=
  ⟨h.width, h.height, h.channels, h.colorspace, h.target, h.cmd, h.free, h.launches⟩

theorem Dec.ChunkFrame.finishChunk {d d' : Dec} (h : d.ChunkFrame d') (len : Nat) : d.ChunkFrame (d'.finishChunk len) := by
  obtain ⟨hw, hh, hch, hcs, ht, hcmd, hf, hl⟩ := h
  constructor <;> simpa

/-- `d'` is `d` after `n` pixels of a chunk, before the chunk ends or raises (42_chunk_decoder R142, R146). -/
structure Dec.Emitted (n : Nat) (d d' : Dec) : Prop where
  pixOut : d.pixOut <+: d'.pixOut
  count : d'.count = d.count + n
  cache : d'.cache = d.cache ∨ d'.cache = d.cache.store d'.prev
  phase : d'.phase = d.phase
  ipos : d'.ipos = d.ipos
  stat : d'.stat = d.stat
  frame : d.ChunkFrame d'

/-- Pixels write no slot but the one of the new `prev` (41_color_cache R133). -/
theorem Dec.Emitted.lookup_of_ne {n : Nat} {d d' : Dec} (h : d.Emitted n d') {k : CacheIndex}
    (hk : k ≠ colorHash d'.prev) : d'.cache.lookup k = d.cache.lookup k := by
  rcases h.cache with e | e
  · rw [e]
  · rw [e, Cache.lookup_store_eq, if_neg hk]

theorem Dec.Emitted.consistent {n : Nat} {d d' : Dec} (h : d.Emitted n d') (hc : d.cache.Consistent) :
    d'.cache.Consistent := by
  rcases h.cache with e | e
  · rwa [e]
  · rw [e]
    exact hc.store d'.prev

/-- What the execution of a chunk of `n` pixels answers from `d`: DEC after all of them, when they fit or `count` is already
past `target`; or the raise at `ipos` after those that fit (60_exceptions R215). -/
def Dec.Executes (n : Nat) (d : Dec) : Except Dec Dec → Prop
  | .ok d' => d.Emitted n d' ∧ (d.count + n ≤ d.target ∨ d.target < d.count)
  | .error d' => ∃ m e, d.Emitted m e ∧ d' = e.raise .overrun d.ipos

theorem Dec.emitPixel_executes (c : Color) (d : Dec) : d.Executes 1 (d.emitPixel c true) := by
  by_cases h : d.count = d.target
  · rw [Dec.emitPixel_overrun h]
    exact ⟨0, d, ⟨List.prefix_refl _, rfl, .inl rfl, rfl, rfl, rfl, .refl d⟩, rfl⟩
  · rw [Dec.emitPixel_ok h]
    exact ⟨⟨List.prefix_append _ _, rfl, .inr rfl, rfl, rfl, rfl, ⟨rfl, rfl, rfl, rfl, rfl, rfl, rfl, rfl⟩⟩, by omega⟩

theorem Dec.emitRun_executes (n : Nat) (d : Dec) : d.Executes n (d.emitRun n) := by
  by_cases h : d.count + n ≤ d.target ∨ d.target < d.count
  · rw [Dec.emitRun_ok h]
    exact ⟨⟨List.prefix_append _ _, rfl, .inl rfl, rfl, rfl, rfl, ⟨rfl, rfl, rfl, rfl, rfl, rfl, rfl, rfl⟩⟩, h⟩
  · have hfit : d.target = d.count + (d.target - d.count) := by omega
    rw [Dec.emitRun_overrun (by omega) (by omega)]
    refine ⟨d.target - d.count, _, ?_, rfl⟩
    exact ⟨List.prefix_append _ _, hfit, .inl rfl, rfl, rfl, rfl, ⟨rfl, rfl, rfl, rfl, rfl, rfl, rfl, rfl⟩⟩

/-- Every chunk is a chunk step of its length around the execution of its pixels (42_chunk_decoder R143 to R150). -/
theorem exec_chunk {i : Instr} (h : i.region = .chunks) :
    ∃ run, (∀ s, exec i s = chunkStep i.length run s) ∧ ∀ d, Dec.Executes i.pixels d (run d) := by
  cases i with
  | rgba r g b a => exact ⟨fun d => d.emitPixel ⟨r, g, b, a⟩ true, fun _ => rfl, fun _ => Dec.emitPixel_executes _ _⟩
  | rgb r g b => exact ⟨fun d => d.emitPixel ⟨r, g, b, d.prev.a⟩ true, fun _ => rfl, fun _ => Dec.emitPixel_executes _ _⟩
  | run n => exact ⟨fun d => d.emitRun n, fun _ => rfl, Dec.emitRun_executes n⟩
  | luma ddr dg ddb =>
    exact ⟨fun d => d.emitPixel (moveColor d.prev (ddr + dg) dg (ddb + dg)) true, fun _ => rfl,
      fun _ => Dec.emitPixel_executes _ _⟩
  | diff dr dg db =>
    exact ⟨fun d => d.emitPixel (moveColor d.prev dr dg db) true, fun _ => rfl, fun _ => Dec.emitPixel_executes _ _⟩
  | index k => exact ⟨fun d => d.emitPixel (d.cache.lookup k) true, fun _ => rfl, fun _ => Dec.emitPixel_executes _ _⟩
  | header w hg ch cs => cases h
  | endMarker => cases h

/-- Everything a chunk in BODY can do: raise OverrunError after the pixels that fit, or emit all its pixels and end. -/
theorem exec_chunk_cases {i : Instr} {s t : State} (hi : i.region = .chunks) (hp : s.dec.phase = .body)
    (h : exec i s = .next t) :
    (∃ m e, s.dec.Emitted m e ∧ t = { s with dec := e.raise .overrun s.dec.ipos })
    ∨ ∃ e, s.dec.Emitted i.pixels e ∧ (s.dec.count + i.pixels ≤ s.dec.target ∨ s.dec.target < s.dec.count)
        ∧ t = { s with dec := e.finishChunk i.length } := by
  obtain ⟨run, hexec, hrun⟩ := exec_chunk hi
  rw [hexec, chunkStep_body hp] at h
  cases h
  have hd := hrun s.dec
  cases hr : run s.dec with
  | error d' =>
    rw [hr] at hd
    obtain ⟨m, e, he, rfl⟩ := hd
    exact .inl ⟨m, e, he, rfl⟩
  | ok d' =>
    rw [hr] at hd
    exact .inr ⟨d', hd.1, hd.2, rfl⟩

/-- A chunk outside BODY leaves the state as it was (log 9). -/
theorem exec_chunk_wait {i : Instr} {s : State} (hi : i.region = .chunks) (hp : s.dec.phase ≠ .body) :
    exec i s = .next s := by
  obtain ⟨run, hexec, -⟩ := exec_chunk hi
  rw [hexec, chunkStep_wait hp]

theorem Dec.stat_prefix_finishChunk (len : Nat) (d : Dec) : d.stat <+: (d.finishChunk len).stat := by
  rw [Dec.finishChunk_stat]
  split
  · exact List.prefix_append _ _
  · exact List.prefix_refl _

/-- Settles O22: the frame of the pixels, through the raise or the end of the chunk. -/
theorem chunkFrame : Obligations.ChunkFrame := by
  unfold Obligations.ChunkFrame
  intro i s t hi h
  by_cases hp : s.dec.phase = .body
  · rcases exec_chunk_cases hi hp h with ⟨m, e, he, rfl⟩ | ⟨e, he, -, rfl⟩
    · refine ⟨⟨rfl, rfl, rfl, rfl, rfl⟩, he.frame.raise _ _, he.pixOut, ?_, he.ipos.ge, ?_, fun k hk => he.lookup_of_ne hk⟩
      · simp [he.stat]
      · simp [he.count]
    · refine ⟨⟨rfl, rfl, rfl, rfl, rfl⟩, he.frame.finishChunk _, ?_, ?_, ?_, ?_, fun k hk => ?_⟩
      · simpa using he.pixOut
      · exact he.stat ▸ e.stat_prefix_finishChunk i.length
      · simp [he.ipos]
      · simp [he.count]
      · simp only [Dec.finishChunk_prev, Dec.finishChunk_cache] at hk ⊢
        exact he.lookup_of_ne hk
  · cases (exec_chunk_wait hi hp).symm.trans h
    exact ⟨⟨rfl, rfl, rfl, rfl, rfl⟩, .refl _, List.prefix_refl _, List.prefix_refl _, le_refl _, le_refl _, fun _ _ => rfl⟩

/-- Settles O23: chunks by the chunk step they all are, the header by its own guard. -/
theorem itemsWaitOutsideTheirPhase : Obligations.ItemsWaitOutsideTheirPhase := by
  unfold Obligations.ItemsWaitOutsideTheirPhase
  intro s
  exact ⟨fun i hi hp => exec_chunk_wait hi hp, fun w h ch cs hp => by rw [exec, execHeader, if_neg hp]⟩

/-! ### The header step of DEC (42_chunk_decoder R141) -/

/-- DEC after a header whose channel count and size are accepted (42_chunk_decoder R141, R154). -/
def Dec.latchHeader (w h : Word32) (ch cs : Byte) (d : Dec) : Dec :=
  { d with
    width := w
    height := h
    channels := ch
    colorspace := cs
    target := pixelCount w h
    ipos := headerBytes
    byteIn := d.byteIn.drop headerBytes
    stat := d.stat ++ [.hdr w h ch cs] ++ (if pixelCount w h = 0 then [.done headerBytes] else [])
    phase := if pixelCount w h = 0 then .done else .body }

theorem Dec.acceptHeader_accepted {cfg : Config} {w h : Word32} {ch cs : Byte} (d : Dec) (hch : LegalChannels ch)
    (hm : pixelCount w h ≤ cfg.maxPixels) : d.acceptHeader cfg w h ch cs = d.latchHeader w h ch cs := by
  unfold Dec.acceptHeader Dec.latchHeader
  rw [if_neg (not_not.2 hch), if_neg (Nat.not_lt.2 hm)]
  by_cases h0 : pixelCount w h = 0
  · simp [h0]
  · simp [h0]

/-- Everything the header step does with a header record: raise at offset 0, or latch it. -/
theorem Dec.acceptHeader_cases (cfg : Config) (w h : Word32) (ch cs : Byte) (d : Dec) :
    (∃ e, d.acceptHeader cfg w h ch cs = d.raise e 0)
    ∨ (LegalChannels ch ∧ pixelCount w h ≤ cfg.maxPixels ∧ d.acceptHeader cfg w h ch cs = d.latchHeader w h ch cs) := by
  by_cases hch : LegalChannels ch
  · by_cases hm : pixelCount w h ≤ cfg.maxPixels
    · exact .inr ⟨hch, hm, d.acceptHeader_accepted hch hm⟩
    · exact .inl ⟨_, by rw [Dec.acceptHeader, if_neg (not_not.2 hch), if_pos (Nat.not_le.1 hm)]⟩
  · exact .inl ⟨_, by rw [Dec.acceptHeader, if_pos hch]⟩

theorem exec_header {s : State} (hp : s.dec.phase = .header) (w h : Word32) (ch cs : Byte) :
    exec (.header w h ch cs) s = .next { s with dec := s.dec.acceptHeader s.cfg w h ch cs } := by
  rw [exec, execHeader, if_pos hp]

/-- Settles O24: every field is read off the latched header. -/
theorem headerAccepted : Obligations.HeaderAccepted := by
  unfold Obligations.HeaderAccepted
  intro s w h ch cs hp hch hm
  refine ⟨_, exec_header hp w h ch cs, ⟨rfl, rfl, rfl, rfl, rfl⟩, ?_⟩
  dsimp only
  rw [s.dec.acceptHeader_accepted hch hm]
  and_intros <;> rfl

/-! ### What one step of DEC can do -/

/-- Everything a step of DEC can do that is no refused launch: the start, a fault entry or the latching of the header step, a
truncation of the chunk step, or a decoded chunk. -/
theorem decStep_cases {s t : State} (h : decStep s = some (.next t)) :
    (s.dec.phase.takesStart = true ∧ t = { s with dec := s.dec.start })
    ∨ (s.dec.phase = .header ∧ ((∃ e, t = { s with dec := s.dec.raise e 0 })
        ∨ ∃ w hg ch cs, LegalChannels ch ∧ pixelCount w hg ≤ s.cfg.maxPixels
          ∧ t = { s with dec := s.dec.latchHeader w hg ch cs }))
    ∨ (s.dec.phase = .body ∧ (t = { s with dec := s.dec.raise .truncatedStream s.dec.ipos }
        ∨ ∃ i bytes, decode .chunks bytes = .ok (i, []) ∧ exec i s = .next t)) := by
  cases hp : s.dec.phase.takesStart with
  | true =>
    by_cases hc : s.dec.cmd = 0
    · cases (decStep_idle hp hc).symm.trans h
    · cases hd : s.dec.undrained with
      | true => cases (decStep_undrained hp (by omega) hd).symm.trans h
      | false =>
        cases (decStep_start hp (by omega) hd).symm.trans h
        exact .inl ⟨rfl, rfl⟩
  | false =>
    rw [decStep_busy hp] at h
    cases hph : s.dec.phase with
    | idle => simp [hph, DecPhase.takesStart] at hp
    | done => simp [hph, DecPhase.takesStart] at hp
    | fault => simp [hph, DecPhase.takesStart] at hp
    | header =>
      refine .inr (.inl ⟨rfl, ?_⟩)
      rw [Dec.fetch_header hph] at h
      rcases fetchHeader_cases s.dec with hf | hf | hf | ⟨w, hg, ch, cs, -, hf, -⟩ <;> simp only [hf] at h
      · cases h
      · cases h
        exact .inl ⟨_, rfl⟩
      · cases h
        exact .inl ⟨_, rfl⟩
      · rw [exec_header hph] at h
        cases h
        rcases s.dec.acceptHeader_cases s.cfg w hg ch cs with ⟨e, he⟩ | ⟨hch, hm, he⟩
        · exact .inl ⟨e, by rw [he]⟩
        · exact .inr ⟨w, hg, ch, cs, hch, hm, by rw [he]⟩
    | body =>
      refine .inr (.inr ⟨rfl, ?_⟩)
      rw [Dec.fetch_body hph] at h
      rcases fetchChunk_cases s.dec with hf | hf | ⟨i, bytes, hf, hdec, -⟩ <;> simp only [hf] at h
      · cases h
      · cases h
        exact .inl rfl
      · exact .inr ⟨i, bytes, hdec, Option.some.inj h⟩

/-- A decoded chunk is a chunk, and has at most five bytes for each of its pixels (30_encoding R90, R99). -/
theorem region_length_of_decode_chunks {bytes rest : List Byte} {i : Instr} (h : decode .chunks bytes = .ok (i, rest)) :
    i.region = .chunks ∧ i.length ≤ 5 * i.pixels := by
  simp only [decode] at h
  unfold decodeChunk at h
  split at h
  · cases h
  · split at h
    · split at h <;> cases h
      exact ⟨rfl, le_refl _⟩
    · split at h <;> cases h
      exact ⟨rfl, by simp [Instr.length, Instr.pixels]⟩
    · cases h
      exact ⟨rfl, by simp only [Instr.length, Instr.pixels]; omega⟩
    · split at h <;> cases h
      exact ⟨rfl, by simp [Instr.length, Instr.pixels]⟩
    · cases h
      exact ⟨rfl, by simp [Instr.length, Instr.pixels]⟩
    · cases h
      exact ⟨rfl, by simp [Instr.length, Instr.pixels]⟩

/-- Everything a step of DEC does in BODY: a fault entry at the position it has reached, or a chunk whose pixels were emitted
(42_chunk_decoder R143). -/
theorem decStep_body_cases {s t : State} (hp : s.dec.phase = .body) (h : decStep s = some (.next t)) :
    (∃ m d e, s.dec.Emitted m d ∧ t = { s with dec := d.raise e s.dec.ipos })
    ∨ ∃ n len d, s.dec.Emitted n d ∧ len ≤ 5 * n ∧ (s.dec.count + n ≤ s.dec.target ∨ s.dec.target < s.dec.count)
        ∧ t = { s with dec := d.finishChunk len } := by
  rcases decStep_cases h with ⟨hb, -⟩ | ⟨hb, -⟩ | ⟨-, rfl | ⟨i, bytes, hdec, hexec⟩⟩
  · rw [hp] at hb
    cases hb
  · cases hb.symm.trans hp
  · exact .inl ⟨0, s.dec, _, ⟨List.prefix_refl _, rfl, .inl rfl, rfl, rfl, rfl, .refl _⟩, rfl⟩
  · obtain ⟨hi, hlen⟩ := region_length_of_decode_chunks hdec
    rcases exec_chunk_cases hi hp hexec with ⟨m, d, hd, rfl⟩ | ⟨d, hd, hfit, rfl⟩
    · exact .inl ⟨m, d, _, hd, rfl⟩
    · exact .inr ⟨_, _, d, hd, hlen, hfit, rfl⟩

/-! ### Waiting and starting -/

/-- An engine takes start commands in IDLE, DONE and FAULT (10_state R43). -/
theorem DecPhase.takesStart_iff {p : DecPhase} : p.takesStart = true ↔ p = .idle ∨ p = .done ∨ p = .fault := by
  cases p <;> decide

theorem EncPhase.takesStart_iff {p : EncPhase} : p.takesStart = true ↔ p = .idle ∨ p = .done ∨ p = .fault := by
  cases p <;> decide

/-- A header that has not arrived (10_state R46). -/
theorem fetchHeader_wait {d : Dec} {bytes : List Byte} (hb : d.stream = bytes.map .byte)
    (h : bytes.length < headerBytes) : fetchHeader d = .wait := by
  simp only [fetchHeader, hb, memRead_wait h]

/-- DEC in HEADER or BODY has no step while its fetch waits (10_state R46). -/
theorem decStep_wait {s : State} (hp : s.dec.phase.takesStart = false) (hf : s.dec.fetch = .wait) : decStep s = none := by
  simp only [decStep_busy hp, hf]

/-- Settles O32: a read of more bytes than have arrived waits, and so does the fetch. -/
theorem decWaitsForBytes : Obligations.DecWaitsForBytes := by
  unfold Obligations.DecWaitsForBytes
  intro s bytes hb
  constructor
  · intro hp hl
    exact decStep_wait (by rw [hp]; rfl) ((Dec.fetch_header hp).trans (fetchHeader_wait hb hl))
  · intro hp hl
    exact decStep_wait (by rw [hp]; rfl) ((Dec.fetch_body hp).trans (fetchChunk_wait hb hl))

/-- With no reset token and no agent's step enabled the machine waits (10_state R46). -/
theorem step_wait {s : State} (hr : s.rst = 0) (h : ∀ a : Agent, a.step s = none) : step s = .next s := by
  simp only [step, hr, if_true, agentsStep, h]

/-- Settles O33: each engine's wait, and the machine's when all three agents wait. -/
theorem enginesWaitForTokens : Obligations.EnginesWaitForTokens := by
  unfold Obligations.EnginesWaitForTokens
  intro s
  refine ⟨fun hp hc => decStep_idle (DecPhase.takesStart_iff.2 hp) hc,
    fun hp hc => encStep_idle (EncPhase.takesStart_iff.2 hp) hc,
    fun hp hc hi => encStep_noPixel (by rw [hp]; rfl) hc.ne hi, ?_⟩
  intro hr hdec henc hhost
  refine step_wait hr fun a => ?_
  cases a with
  | enc => exact henc
  | dec => exact hdec
  | host => simp only [Agent.step, hhost, Option.map_none]

/-- The step of the machine is DEC's, when DEC has precedence and its step is enabled. -/
theorem step_eq_of_decStep {s : State} {o : Host.Outcome State Fault Refusal} (hr : s.rst = 0) (ht : s.turn = .dec)
    (h : decStep s = some o) : step s = o :=
  step_of_turn hr (by rw [ht]; exact h)

/-- The step of the machine is ENC's, when ENC has precedence and its step is enabled. -/
theorem step_eq_of_encStep {s : State} {o : Host.Outcome State Fault Refusal} (hr : s.rst = 0) (ht : s.turn = .enc)
    (h : encStep s = some o) : step s = o :=
  step_of_turn hr (by rw [ht]; exact h)

/-- Settles O28: the fetch finds the chunk, and DEC's step is the machine's. -/
theorem stepRunsTheDecodedChunk : Obligations.StepRunsTheDecodedChunk := by
  unfold Obligations.StepRunsTheDecodedChunk
  intro s i bytes rest more hr ht hp hb hd
  exact step_eq_of_decStep hr ht (decStep_chunk hp hb hd)

/-- Settles O29: the fetch finds the header, and DEC's step is the machine's. -/
theorem stepRunsTheDecodedHeader : Obligations.StepRunsTheDecodedHeader := by
  unfold Obligations.StepRunsTheDecodedHeader
  intro s i bytes rest more hr ht hp hb hd
  exact step_eq_of_decStep hr ht (decStep_header hp hb hd)

/-- Settles O35: the step is `Dec.start`, field by field. -/
theorem decStartInitialises : Obligations.DecStartInitialises := by
  unfold Obligations.DecStartInitialises
  intro s hr ht hp hc hd
  exact ⟨_, step_eq_of_decStep hr ht (decStep_start hp hc hd), ⟨rfl, rfl, rfl, rfl, rfl⟩, rfl, rfl,
    Cache.lookup_clear, rfl, rfl, Nat.sub_add_cancel hc, rfl, rfl, rfl⟩

/-- A start of DEC reads the ports and the model's two counters only (70_reset R241). -/
theorem Dec.start_eq_of_ports {d d' : Dec} (hcmd : d'.cmd = d.cmd) (hin : d'.byteIn = d.byteIn)
    (hout : d'.pixOut = d.pixOut) (hstat : d'.stat = d.stat) (hl : d'.launches = d.launches) (hf : d'.free = d.free) :
    d'.start = d.start := by
  simp only [Dec.start, hcmd, hin, hout, hstat, hl, hf]

/-- Settles O36: whether DEC waits, is refused or starts, and what it starts as, are read off ports and counters. -/
theorem decStartForgetsThePast : Obligations.DecStartForgetsThePast := by
  unfold Obligations.DecStartForgetsThePast
  intro s d d' hp hp' hcmd hin hout hstat hl hf
  have hu : d'.undrained = d.undrained := by simp only [Dec.undrained, hl, hin]
  simp only [decStep, hp, hp', if_true, hcmd, hu, Dec.start_eq_of_ports hcmd hin hout hstat hl hf]

/-! ### Refused launches (93 U14; log 6) -/

/-- DEC's step is the refusal exactly on an undrained launch. -/
theorem decStep_eq_refused_iff {s : State} :
    decStep s = some (.refused (.undrainedLaunch .dec)) ↔ s.dec.LaunchRefused := by
  constructor
  · intro h
    rcases decStep_onlyDec s with e | ⟨d, e⟩ | ⟨-, hl⟩
    · cases e.symm.trans h
    · cases e.symm.trans h
    · exact hl
  · rintro ⟨hp, hc, hd⟩
    exact decStep_undrained hp hc hd

/-- ENC's step is the refusal exactly on an undrained launch. -/
theorem encStep_eq_refused_iff {s : State} :
    encStep s = some (.refused (.undrainedLaunch .enc)) ↔ s.enc.LaunchRefused := by
  constructor
  · intro h
    rcases encStep_onlyEnc s with e | ⟨x, e⟩ | ⟨-, hl⟩
    · cases e.symm.trans h
    · cases e.symm.trans h
    · exact hl
  · rintro ⟨hp, hc, hd⟩
    obtain ⟨c, rest, hc⟩ := List.exists_cons_of_ne_nil hc
    exact encStep_undrained hp hc hd

/-- Settles O34: a refusal is an undrained launch, which is one whose oldest input token carries an earlier mark. -/
theorem undrainedLaunchIsRefused : Obligations.UndrainedLaunchIsRefused := by
  unfold Obligations.UndrainedLaunchIsRefused
  intro s
  refine ⟨?_, ?_, fun r hr h => step_of_turn hr h⟩
  · rw [decStep_eq_refused_iff, Dec.LaunchRefused, Dec.undrained, leftoverFirst_eq_true]
  · rw [encStep_eq_refused_iff, Enc.LaunchRefused, Enc.undrained, leftoverFirst_eq_true]

/-! ### ENC's start step (43_chunk_encoder R171) -/

/-- A start command with a bad channel count or over the limit raises at offset 0, channels first (60_exceptions R219). -/
theorem Enc.start_rejected {cfg : Config} {c : EncCommand} (x : Enc)
    (h : ¬ LegalChannels c.channels ∨ cfg.maxPixels < pixelCount c.width c.height) :
    Enc.start cfg c x = (x.initialise c).raise
      (if ¬ LegalChannels c.channels then .unsupportedChannel else .dimensionLimit) 0 := by
  unfold Enc.start
  by_cases hch : LegalChannels c.channels
  · have hm := h.resolve_left (not_not.2 hch)
    simp only [hch, hm, not_true_eq_false, if_false, if_true]
  · simp only [hch, not_false_eq_true, if_true]

/-- An accepted start command writes the header, and ends the image at once when it has no pixel (43_chunk_encoder R185). -/
theorem Enc.start_accepted {cfg : Config} {c : EncCommand} (x : Enc) (hch : LegalChannels c.channels)
    (hm : pixelCount c.width c.height ≤ cfg.maxPixels) :
    Enc.start cfg c x =
      if pixelCount c.width c.height = 0 then
        ((x.initialise c).emit (.header c.width c.height c.channels c.colorspace)).finish
      else { (x.initialise c).emit (.header c.width c.height c.channels c.colorspace) with phase := .body } := by
  unfold Enc.start
  rw [if_neg (not_not.2 hch), if_neg (Nat.not_lt.2 hm)]
  rfl

/-- Settles O38: the initialised engine after the header, with or without the end marker. -/
theorem encStartAccepted : Obligations.EncStartAccepted := by
  unfold Obligations.EncStartAccepted
  intro s c rest hr ht hp hc hd hch hm
  refine ⟨_, step_eq_of_encStep hr ht (encStep_start hp hc hd), ⟨rfl, rfl, rfl, rfl, rfl⟩, ?_⟩
  dsimp only
  rw [Enc.start_accepted _ hch hm]
  have hhdr : encode (.header c.width c.height c.channels c.colorspace)
      = [0x71, 0x6F, 0x69, 0x66] ++ be32 c.width ++ be32 c.height ++ [c.channels, c.colorspace] := by
    simp [encode, encodeHeader, magic]
  by_cases h0 : pixelCount c.width c.height = 0
  · have h0' : c.width.toNat * c.height.toNat = 0 := h0
    simp only [h0, h0', if_true]
    refine ⟨rfl, Cache.lookup_clear, rfl, rfl, rfl, rfl, rfl, rfl, h0, rfl, rfl, ?_, rfl, rfl, rfl⟩
    simp [hhdr]
  · have h0' : c.width.toNat * c.height.toNat ≠ 0 := h0
    simp only [h0, h0', if_false]
    refine ⟨rfl, Cache.lookup_clear, rfl, rfl, rfl, rfl, rfl, rfl, rfl, rfl, rfl, ?_, rfl, trivial, rfl⟩
    simp [hhdr]

/-- Settles O39: the initialised engine after the raise, whose error the channel count decides. -/
theorem encStartRejected : Obligations.EncStartRejected := by
  unfold Obligations.EncStartRejected
  intro s c rest hr ht hp hc hd hbad
  refine ⟨_, _, step_eq_of_encStep hr ht (encStep_start hp hc hd), ⟨rfl, rfl, rfl, rfl, rfl⟩, rfl, ?_⟩
  dsimp only
  rw [Enc.start_rejected _ hbad]
  have hcode : ErrorKind.code (if ¬ LegalChannels c.channels then .unsupportedChannel else .dimensionLimit)
      = if ¬ LegalChannels c.channels then 2 else 3 := by
    split <;> rfl
  rw [← hcode]
  exact ⟨rfl, rfl, rfl, rfl, rfl, rfl, Cache.lookup_clear, rfl, rfl, rfl, rfl, rfl, rfl, rfl, rfl⟩

/-! ### What one step of ENC can do -/

/-- END in BODY with every pixel consumed ends the encode (43_chunk_encoder R182; log 10). -/
theorem exec_endMarker_due {s : State} (hp : s.enc.phase = .body) (hc : s.enc.count = s.enc.target) :
    exec .endMarker s = .next { s with enc := s.enc.finish } := by
  rw [exec, execEndMarker, if_pos ⟨hp, hc⟩]

/-- Settles O26: the effect is `Enc.finish`. -/
theorem endMarkerEndsTheEncode : Obligations.EndMarkerEndsTheEncode := by
  unfold Obligations.EndMarkerEndsTheEncode
  intro s hp hc
  exact exec_endMarker_due hp hc

/-- Everything a step of ENC can do that is no refused launch: the start, END where it is due, or a pixel. -/
theorem encStep_cases {s t : State} (h : encStep s = some (.next t)) :
    (s.enc.phase.takesStart = true
      ∧ ∃ c rest, s.enc.cmd = c :: rest ∧ t = { s with enc := Enc.start s.cfg c { s.enc with cmd := rest } })
    ∨ (s.enc.phase = .body ∧ s.enc.count = s.enc.target ∧ t = { s with enc := s.enc.finish })
    ∨ (s.enc.phase = .body ∧ s.enc.count ≠ s.enc.target
      ∧ ∃ p rest, t = { s with enc := Enc.pixelStep p { s.enc with pixIn := rest } }) := by
  cases hp : s.enc.phase.takesStart with
  | true =>
    cases hc : s.enc.cmd with
    | nil => cases (encStep_idle hp hc).symm.trans h
    | cons c rest =>
      cases hd : s.enc.undrained with
      | true => cases (encStep_undrained hp hc hd).symm.trans h
      | false =>
        cases (encStep_start hp hc hd).symm.trans h
        exact .inl ⟨rfl, c, rest, rfl, rfl⟩
  | false =>
    have hb := EncPhase.eq_body_of_busy hp
    by_cases hc : s.enc.count = s.enc.target
    · rw [encStep_endDue hp hc, exec_endMarker_due hb hc] at h
      cases h
      exact .inr (.inl ⟨hb, hc, rfl⟩)
    · cases hi : s.enc.pixIn with
      | nil => cases (encStep_noPixel hp hc hi).symm.trans h
      | cons p rest =>
        cases (encStep_busy hb hc hi).symm.trans h
        exact .inr (.inr ⟨hb, hc, p.token, rest, rfl⟩)

@[simp] theorem Enc.lengthenRun_cmd (last : Bool) (x : Enc) : (x.lengthenRun last).cmd = x.cmd := by
  unfold Enc.lengthenRun
  dsimp only
  split <;> rfl

@[simp] theorem Enc.encodeChange_cmd (c : Color) (x : Enc) : (x.encodeChange c).cmd = x.cmd := by
  rw [Enc.encodeChange_eq]

@[simp] theorem Enc.encodePixel_cmd (c : Color) (x : Enc) : (x.encodePixel c).cmd = x.cmd := by
  unfold Enc.encodePixel
  dsimp only
  split <;> simp

/-- A pixel step leaves the command port, whatever the run (10_state R42). -/
@[simp] theorem Enc.pixelStep_cmd (p : Color) (x : Enc) : (x.pixelStep p).cmd = x.cmd := by
  unfold Enc.pixelStep
  dsimp only
  split <;> simp

/-- Settles O37: no step but a start step reaches the command port. -/
theorem busyEngineLeavesItsCommand : Obligations.BusyEngineLeavesItsCommand := by
  unfold Obligations.BusyEngineLeavesItsCommand
  intro s t
  constructor
  · intro hbusy h
    rcases decStep_cases h with ⟨hp, -⟩ | ⟨-, ⟨e, rfl⟩ | ⟨w, hg, ch, cs, -, -, rfl⟩⟩ | ⟨hp, -⟩
    · cases hbusy.symm.trans hp
    · rfl
    · rfl
    · rcases decStep_body_cases hp h with ⟨m, d, e, hd, rfl⟩ | ⟨n, len, d, hd, -, -, rfl⟩
      · exact hd.frame.cmd
      · simp [hd.frame.cmd]
  · intro hbusy h
    rcases encStep_cases h with ⟨hp, -⟩ | ⟨-, -, rfl⟩ | ⟨-, -, p, rest, rfl⟩
    · cases hbusy.symm.trans hp
    · rfl
    · simp

/-! ### Reset and host (10_state R37, R40 to R47) -/

/-- A waiting reset token is taken first (10_state R41, log 4). -/
theorem step_reset {s : State} (h : 0 < s.rst) : step s = .next s.takeReset := if_neg h.ne'

/-- Settles O48: the step is `State.takeReset`, field by field. -/
theorem resetTokenIdlesBothEngines : Obligations.ResetTokenIdlesBothEngines := by
  unfold Obligations.ResetTokenIdlesBothEngines
  intro s h
  refine ⟨_, step_reset h, Nat.sub_add_cancel h, ?_⟩
  and_intros <;> rfl

/-- Settles O49: each field of the reset state is given by its definition. -/
theorem resetStateIsIdle : Obligations.ResetStateIsIdle := by
  unfold Obligations.ResetStateIsIdle
  and_intros <;> rfl

/-- A step of the host changes no register of an engine (10_state R25, R40). -/
theorem hostStep_ports {s t : State} (h : hostStep s = some t) :
    t.cfg = s.cfg
    ∧ t.enc = { s.enc with cmd := t.enc.cmd, pixIn := t.enc.pixIn, byteOut := t.enc.byteOut, stat := t.enc.stat }
    ∧ t.dec = { s.dec with
        cmd := t.dec.cmd, byteIn := t.dec.byteIn, pixOut := t.dec.pixOut, stat := t.dec.stat } := by
  unfold hostStep at h
  split at h
  · cases h
  · obtain ⟨u, hu, rfl⟩ := Option.map_eq_some_iff.1 h
    obtain ⟨hcfg, -, henc, hdec⟩ := HostAction.perform_ports hu
    exact ⟨hcfg, henc, hdec⟩

/-- Settles O50: what an action may change, carried from the action to the host's step. -/
theorem hostWritesNoRegister : Obligations.HostWritesNoRegister := by
  unfold Obligations.HostWritesNoRegister
  intro s t h
  exact hostStep_ports h

theorem Enc.takeByte_cons {x : Enc} {b : Byte} {rest : List Byte} (h : x.byteOut = b :: rest) :
    x.takeByte = some { x with byteOut := rest } := by
  rw [Enc.takeByte, h]

theorem Enc.takeByte_nil {x : Enc} (h : x.byteOut = []) : x.takeByte = none := by
  rw [Enc.takeByte, h]

theorem Enc.takeStatus_cons {x : Enc} {r : EncStatus} {rest : List EncStatus} (h : x.stat = r :: rest) :
    x.takeStatus = some { x with stat := rest } := by
  rw [Enc.takeStatus, h]

theorem Enc.takeStatus_nil {x : Enc} (h : x.stat = []) : x.takeStatus = none := by
  rw [Enc.takeStatus, h]

theorem Dec.takePixel_cons {d : Dec} {p : Color} {rest : List Color} (h : d.pixOut = p :: rest) :
    d.takePixel = some { d with pixOut := rest } := by
  rw [Dec.takePixel, h]

theorem Dec.takePixel_nil {d : Dec} (h : d.pixOut = []) : d.takePixel = none := by
  rw [Dec.takePixel, h]

theorem Dec.takeStatus_cons {d : Dec} {r : DecStatus} {rest : List DecStatus} (h : d.stat = r :: rest) :
    d.takeStatus = some { d with stat := rest } := by
  rw [Dec.takeStatus, h]

theorem Dec.takeStatus_nil {d : Dec} (h : d.stat = []) : d.takeStatus = none := by
  rw [Dec.takeStatus, h]

/-- The host may remove ENC's oldest pixel between operations (70_reset R247, log 14). -/
theorem Enc.dropPixel_cons {x : Enc} {p : Marked Color} {rest : List (Marked Color)} (hp : x.phase.takesStart = true)
    (h : x.pixIn = p :: rest) : x.dropPixel = some { x with pixIn := rest } := by
  rw [Enc.dropPixel, hp, h]

theorem Enc.dropPixel_busy {x : Enc} (h : x.phase.takesStart = false) : x.dropPixel = none := by
  rw [Enc.dropPixel, h]

theorem Enc.dropPixel_nil {x : Enc} (h : x.pixIn = []) : x.dropPixel = none := by
  simp [Enc.dropPixel, h]

/-- The host may remove DEC's oldest input token between operations (70_reset R247, log 14). -/
theorem Dec.dropInput_cons {d : Dec} {t : Marked InToken} {rest : List (Marked InToken)} (hp : d.phase.takesStart = true)
    (h : d.byteIn = t :: rest) : d.dropInput = some { d with byteIn := rest } := by
  rw [Dec.dropInput, hp, h]

theorem Dec.dropInput_busy {d : Dec} (h : d.phase.takesStart = false) : d.dropInput = none := by
  rw [Dec.dropInput, h]

theorem Dec.dropInput_nil {d : Dec} (h : d.byteIn = []) : d.dropInput = none := by
  simp [Dec.dropInput, h]

/-- Settles O51: puts and `setTurn` by definition, takes and removals by the equations of their engine's port. -/
theorem hostActionsOnPorts : Obligations.HostActionsOnPorts := by
  unfold Obligations.HostActionsOnPorts
  intro s
  refine ⟨rfl, fun _ => rfl, fun _ _ => rfl, rfl, fun _ _ => rfl, fun _ => rfl, ?_, ?_, ?_, ?_, ?_, ?_, ?_, ?_, ?_, ?_, ?_,
    ?_, fun _ => rfl, ?_, ?_⟩
  · exact fun b rest h => congrArg (Option.map _) (Enc.takeByte_cons h)
  · exact fun h => congrArg (Option.map _) (Enc.takeByte_nil h)
  · exact fun p rest h => congrArg (Option.map _) (Dec.takePixel_cons h)
  · exact fun h => congrArg (Option.map _) (Dec.takePixel_nil h)
  · exact fun r rest h => congrArg (Option.map _) (Enc.takeStatus_cons h)
  · exact fun h => congrArg (Option.map _) (Enc.takeStatus_nil h)
  · exact fun r rest h => congrArg (Option.map _) (Dec.takeStatus_cons h)
  · exact fun h => congrArg (Option.map _) (Dec.takeStatus_nil h)
  · intro p rest hp h
    have hidle : s.enc.phase.takesStart = true := by
      cases he : s.enc.phase with
      | body => exact absurd he hp
      | _ => rfl
    exact congrArg (Option.map _) (Enc.dropPixel_cons hidle h)
  · rintro (hp | h)
    · exact congrArg (Option.map _) (Enc.dropPixel_busy (by rw [hp]; rfl))
    · exact congrArg (Option.map _) (Enc.dropPixel_nil h)
  · intro t rest hh hb h
    have hidle : s.dec.phase.takesStart = true := by
      cases he : s.dec.phase with
      | header => exact absurd he hh
      | body => exact absurd he hb
      | _ => rfl
    exact congrArg (Option.map _) (Dec.dropInput_cons hidle h)
  · rintro (hp | hp | h)
    · exact congrArg (Option.map _) (Dec.dropInput_busy (by rw [hp]; rfl))
    · exact congrArg (Option.map _) (Dec.dropInput_busy (by rw [hp]; rfl))
    · exact congrArg (Option.map _) (Dec.dropInput_nil h)
  · intro h
    rw [hostStep, h]
  · intro a rest h
    rw [hostStep, h]

/-! ### The table of phases (10_state R22) -/

/-- A pixel step of ENC stays in BODY below `target` or ends in DONE at it (43_chunk_encoder R172, R182). -/
theorem Enc.PixelEffect.phase_cases {c : Color} {chunks : List Byte} {run : BitVec 6} {cache : Cache}
    {rest : List (Marked Color)} {x x' : Enc} (h : x.PixelEffect c chunks run cache rest x') (hc : x.count < x.target) :
    (x'.phase = .body ∧ x'.count < x'.target) ∨ (x'.phase = .done ∧ x'.count = x'.target) := by
  rw [h.phase, h.count, h.target]
  by_cases hl : x.count + 1 = x.target
  · exact .inr ⟨if_pos hl, hl⟩
  · exact .inl ⟨if_neg hl, by omega⟩

/-- The start row of ENC: to BODY with pixels to come, to DONE with none, or to FAULT with the token (43_chunk_encoder R171,
R185). -/
theorem Enc.start_phase_cases (cfg : Config) (c : EncCommand) (x : Enc) :
    ((Enc.start cfg c x).phase = .body ∧ 0 < (Enc.start cfg c x).target)
    ∨ ((Enc.start cfg c x).phase = .done ∧ (Enc.start cfg c x).target = 0)
    ∨ ((Enc.start cfg c x).phase = .fault
      ∧ (Enc.start cfg c x).stat = x.stat ++ [.fault (Enc.start cfg c x).fault]) := by
  by_cases hbad : ¬ LegalChannels c.channels ∨ cfg.maxPixels < pixelCount c.width c.height
  · rw [Enc.start_rejected x hbad]
    exact .inr (.inr ⟨rfl, rfl⟩)
  · obtain ⟨hch, hm⟩ := not_or.1 hbad
    rw [Enc.start_accepted x (not_not.1 hch) (Nat.not_lt.1 hm)]
    split
    · next h0 => exact .inr (.inl ⟨rfl, h0⟩)
    · next h0 => exact .inl ⟨rfl, Nat.pos_of_ne_zero h0⟩

/-- ENC's invariant in BODY. -/
theorem Enc.inv_of_body {cfg : Config} {x : Enc} (hp : x.phase = .body) (h : x.Inv cfg) :
    x.Latched cfg ∧ x.count < x.target ∧ x.run.toNat ≤ 61 ∧ x.run.toNat ≤ x.count
      ∧ x.opos + (if x.run = 0 then 0 else 1) ≤ headerBytes + 5 * x.count := by
  rwa [Enc.Inv, hp] at h

/-- DEC's invariant in BODY. -/
theorem Dec.inv_of_body {cfg : Config} {d : Dec} (hp : d.phase = .body) (h : d.Inv cfg) :
    d.Latched cfg ∧ d.count < d.target := by
  rwa [Dec.Inv, hp] at h

/-- The rows of ENC. -/
theorem encStep_phase {s t : State} (hinv : s.enc.Inv s.cfg) (h : encStep s = some (.next t)) :
    (s.enc.phase.takesStart = true
      ∧ ((t.enc.phase = .body ∧ 0 < t.enc.target) ∨ (t.enc.phase = .done ∧ t.enc.target = 0)
        ∨ (t.enc.phase = .fault ∧ t.enc.stat = s.enc.stat ++ [.fault t.enc.fault])))
    ∨ (s.enc.phase = .body
      ∧ ((t.enc.phase = .body ∧ t.enc.count < t.enc.target)
        ∨ (t.enc.phase = .done ∧ t.enc.count = t.enc.target))) := by
  rcases encStep_cases h with ⟨hp, c, rest, -, rfl⟩ | ⟨hp, hc, rfl⟩ | ⟨hp, -, p, rest, rfl⟩
  · exact .inl ⟨hp, Enc.start_phase_cases s.cfg c { s.enc with cmd := rest }⟩
  · exact .inr ⟨hp, .inr ⟨rfl, hc⟩⟩
  · obtain ⟨-, hlt, hrun, -⟩ := Enc.inv_of_body hp hinv
    refine .inr ⟨hp, ?_⟩
    rcases Enc.pixelStep_cases (p := p) (rest := rest) hp hrun with ⟨-, -, -, he⟩ | ⟨-, -, he⟩ | ⟨-, he⟩
    · exact he.phase_cases hlt
    · exact he.phase_cases hlt
    · exact he.phase_cases hlt

/-- The header row of DEC: to BODY with pixels to come, to DONE with none (42_chunk_decoder R141, R154). -/
theorem Dec.latchHeader_phase_cases (w h : Word32) (ch cs : Byte) (d : Dec) :
    ((d.latchHeader w h ch cs).phase = .body ∧ 0 < (d.latchHeader w h ch cs).target)
    ∨ ((d.latchHeader w h ch cs).phase = .done ∧ (d.latchHeader w h ch cs).target = 0) := by
  by_cases h0 : pixelCount w h = 0
  · exact .inr ⟨if_pos h0, h0⟩
  · exact .inl ⟨if_neg h0, Nat.pos_of_ne_zero h0⟩

/-- A chunk that has emitted pixels within `target` stays in BODY below it or ends in DONE at it (42_chunk_decoder R151). -/
theorem Dec.finishChunk_phase_cases {d : Dec} (len : Nat) (hp : d.phase = .body) (hc : d.count ≤ d.target) :
    ((d.finishChunk len).phase = .body ∧ (d.finishChunk len).count < (d.finishChunk len).target)
    ∨ ((d.finishChunk len).phase = .done ∧ (d.finishChunk len).count = (d.finishChunk len).target) := by
  simp only [Dec.finishChunk_phase, Dec.finishChunk_count, Dec.finishChunk_target, hp]
  by_cases hl : d.count = d.target
  · exact .inr ⟨if_pos hl, hl⟩
  · exact .inl ⟨if_neg hl, by omega⟩

/-- The rows of DEC. -/
theorem decStep_phase {s t : State} (hinv : s.dec.Inv s.cfg) (h : decStep s = some (.next t)) :
    (s.dec.phase.takesStart = true ∧ t.dec.phase = .header)
    ∨ (s.dec.phase = .header
      ∧ ((t.dec.phase = .body ∧ 0 < t.dec.target) ∨ (t.dec.phase = .done ∧ t.dec.target = 0)
        ∨ (t.dec.phase = .fault ∧ t.dec.stat = s.dec.stat ++ [.fault t.dec.fault])))
    ∨ (s.dec.phase = .body
      ∧ ((t.dec.phase = .body ∧ t.dec.count < t.dec.target) ∨ (t.dec.phase = .done ∧ t.dec.count = t.dec.target)
        ∨ (t.dec.phase = .fault ∧ t.dec.stat = s.dec.stat ++ [.fault t.dec.fault]))) := by
  rcases decStep_cases h with ⟨hp, rfl⟩ | ⟨hp, ⟨e, rfl⟩ | ⟨w, hg, ch, cs, -, -, rfl⟩⟩ | ⟨hp, -⟩
  · exact .inl ⟨hp, rfl⟩
  · exact .inr (.inl ⟨hp, .inr (.inr ⟨rfl, rfl⟩)⟩)
  · refine .inr (.inl ⟨hp, ?_⟩)
    exact (Dec.latchHeader_phase_cases w hg ch cs s.dec).imp_right .inl
  · refine .inr (.inr ⟨hp, ?_⟩)
    obtain ⟨-, hlt⟩ := Dec.inv_of_body hp hinv
    rcases decStep_body_cases hp h with ⟨m, d, e, hd, rfl⟩ | ⟨n, len, d, hd, -, hfit, rfl⟩
    · exact .inr (.inr ⟨rfl, by simp [hd.stat]⟩)
    · have hcount : d.count ≤ d.target := by rw [hd.count, hd.frame.target]; omega
      exact (Dec.finishChunk_phase_cases len (hd.phase.trans hp) hcount).imp_right .inl

/-- Settles O47: the rows of each engine, the reset token first, and the host that writes no register. -/
theorem phasesMoveAlongTheTable : Obligations.PhasesMoveAlongTheTable := by
  unfold Obligations.PhasesMoveAlongTheTable
  intro s t hinv
  obtain ⟨henc, hdec⟩ := hinv
  refine ⟨encStep_phase henc, decStep_phase hdec, fun hr h => ?_, fun h => ?_⟩
  · cases (step_reset hr).symm.trans h
    exact ⟨rfl, rfl⟩
  · obtain ⟨-, he, hd⟩ := hostStep_ports h
    exact ⟨(congrArg Enc.phase he).trans rfl, (congrArg Dec.phase hd).trans rfl⟩

/-! ### The invariant of both engines -/

theorem pendingRun_length (x : Enc) : x.pendingRun.length = if x.run = 0 then 0 else 1 := by
  unfold Enc.pendingRun
  by_cases h : x.run = 0
  · simp [h]
  · have h' : x.run.toNat ≠ 0 := fun e => h (BitVec.eq_of_toNat_eq e)
    rw [if_neg h', if_neg h]
    rfl

/-- A pixel step keeps ENC's invariant when its pixel is opaque for three channels, its cache consistent, its run within
bounds and flushed at the last pixel, and its bytes at most five beyond those of the run that was pending
(43_chunk_encoder R190). -/
theorem Enc.PixelEffect.inv {cfg : Config} {c : Color} {chunks : List Byte} {run : BitVec 6} {cache : Cache}
    {rest : List (Marked Color)} {x x' : Enc} (h : x.PixelEffect c chunks run cache rest x') (hp : x.phase = .body)
    (hinv : x.Inv cfg) (hopaque : x.channels = 3 → c.a = 255) (hcache : cache.Consistent) (hrun : run.toNat ≤ 61)
    (hrunCount : run.toNat ≤ x.count + 1) (hlast : x.count + 1 = x.target → run = 0)
    (hbytes : chunks.length + (if run = 0 then 0 else 1) ≤ 5 + (if x.run = 0 then 0 else 1)) : x'.Inv cfg := by
  obtain ⟨⟨htarget, hlimit, hch, -, -⟩, hlt, -, -, hopos⟩ := Enc.inv_of_body hp hinv
  have hL : x'.Latched cfg := by
    constructor
    · rw [h.target, h.width, h.height, htarget]
    · rw [h.target]
      exact hlimit
    · rw [h.channels]
      exact hch
    · rw [h.channels, h.prev]
      exact hopaque
    · rw [Cache.ext_lookup h.cache]
      exact hcache
  have hpos := h.opos
  have hphase := h.phase
  by_cases hl : x.count + 1 = x.target
  · rw [if_pos hl] at hphase hpos
    rw [Enc.Inv, hphase]
    refine ⟨hL, h.count.trans (hl.trans h.target.symm), h.run.trans (hlast hl), ?_⟩
    rw [hpos, h.target, endMarkerBytes]
    omega
  · rw [if_neg hl] at hphase hpos
    rw [Enc.Inv, hphase]
    refine ⟨hL, ?_, ?_, ?_, ?_⟩
    · rw [h.count, h.target]
      omega
    · rwa [h.run]
    · rwa [h.run, h.count]
    · rw [hpos, h.run, h.count]
      omega

theorem forceAlpha_opaque (p : Color) : (forceAlpha 3 p).a = 255 := rfl

/-- ENC's pixel step keeps its invariant: each of its three branches writes within five bytes a pixel. -/
theorem Enc.inv_pixelStep {cfg : Config} {x : Enc} (hp : x.phase = .body) (hinv : x.Inv cfg) (p : Color)
    (rest : List (Marked Color)) : (Enc.pixelStep p { x with pixIn := rest }).Inv cfg := by
  obtain ⟨hL, -, hrun, hcount, -⟩ := Enc.inv_of_body hp hinv
  have hopaque : x.channels = 3 → (forceAlpha x.channels p).a = 255 := by
    intro h
    rw [h]
    exact forceAlpha_opaque p
  rcases Enc.pixelStep_cases (p := p) (rest := rest) hp hrun with ⟨-, hlt, hnl, he⟩ | ⟨-, -, he⟩ | ⟨-, he⟩
  · have hsucc : (x.run + 1).toNat = x.run.toNat + 1 := by
      rw [BitVec.toNat_add]
      exact Nat.mod_eq_of_lt (by simp; omega)
    exact he.inv hp hinv hopaque hL.cache (by omega) (by omega) (fun hl => absurd hl hnl)
      (by rw [List.length_nil]; split <;> omega)
  · exact he.inv hp hinv hopaque hL.cache (by decide) (Nat.zero_le _) (fun _ => rfl)
      (by rw [if_pos rfl, List.length_singleton]; omega)
  · refine he.inv hp hinv hopaque (hL.cache.afterChange _) (by decide) (Nat.zero_le _) (fun _ => rfl) ?_
    have := chooseChunk_length x.cache x.prev (forceAlpha x.channels p)
    rw [List.length_append, pendingRun_length, if_pos rfl]
    omega

theorem Enc.inv_encStep {s t : State} (hinv : s.enc.Inv s.cfg) (h : encStep s = some (.next t)) : t.enc.Inv s.cfg := by
  rcases encStep_cases h with ⟨-, c, rest, -, rfl⟩ | ⟨hp, hc, -⟩ | ⟨hp, -, p, rest, rfl⟩
  · exact Enc.inv_start s.cfg c { s.enc with cmd := rest }
  · obtain ⟨-, hlt, -⟩ := Enc.inv_of_body hp hinv
    exact absurd hc hlt.ne
  · exact Enc.inv_pixelStep hp hinv p rest

/-- A latched header meets the invariant: nothing is produced yet, and the cache is still clear. -/
theorem Dec.inv_latchHeader {cfg : Config} {w h : Word32} {ch cs : Byte} {d : Dec} (hp : d.phase = .header)
    (hinv : d.Inv cfg) (hch : LegalChannels ch) (hm : pixelCount w h ≤ cfg.maxPixels) :
    (d.latchHeader w h ch cs).Inv cfg := by
  rw [Dec.Inv, hp] at hinv
  obtain ⟨-, hcount, -, hcache⟩ := hinv
  have hconsistent : d.cache.Consistent := hcache ▸ Cache.consistent_clear
  have hL : (d.latchHeader w h ch cs).Latched cfg := ⟨rfl, hm, hch, le_refl _, Nat.le_add_right _ _, hconsistent⟩
  have hcount' : (d.latchHeader w h ch cs).count = 0 := hcount
  rcases Dec.latchHeader_phase_cases w h ch cs d with ⟨hph, ht⟩ | ⟨hph, ht⟩
  · rw [Dec.Inv, hph]
    exact ⟨hL, hcount'.trans_lt ht⟩
  · rw [Dec.Inv, hph]
    exact ⟨hL, hcount'.trans ht.symm⟩

theorem Dec.inv_decStep {s t : State} (hinv : s.dec.Inv s.cfg) (h : decStep s = some (.next t)) : t.dec.Inv s.cfg := by
  rcases decStep_cases h with ⟨-, rfl⟩ | ⟨hp, hhead⟩ | ⟨hp, -⟩
  · exact ⟨rfl, rfl, rfl, rfl⟩
  · rcases hhead with ⟨e, rfl⟩ | ⟨w, hg, ch, cs, hch, hm, rfl⟩
    · rw [Dec.Inv, hp] at hinv
      exact Dec.inv_raise hinv.1.symm
    · exact Dec.inv_latchHeader hp hinv hch hm
  · obtain ⟨hL, hlt⟩ := Dec.inv_of_body hp hinv
    rcases decStep_body_cases hp h with ⟨m, d, e, hd, rfl⟩ | ⟨n, len, d, hd, hlen, hfit, rfl⟩
    · exact Dec.inv_raise hd.ipos.symm
    · exact Dec.inv_finishChunk hL hp (by omega) hlen hd.phase hd.frame.width hd.frame.height hd.frame.channels
        hd.frame.target hd.ipos hd.count (hd.consistent hL.cache)

/-- The host reaches the ports only, and the ports are no part of the invariant. -/
theorem State.inv_hostStep {s t : State} (hinv : s.Inv) (h : hostStep s = some t) : t.Inv := by
  obtain ⟨hcfg, henc, hdec⟩ := hostStep_ports h
  rw [State.Inv, hcfg, henc, hdec]
  exact ⟨Enc.inv_ports hinv.1 _ _ _ _, Dec.inv_ports hinv.2 _ _ _ _⟩

/-- An agent's step keeps the invariant: an engine's step its own half, for it leaves the other engine and the parameter. -/
theorem State.inv_agentStep {a : Agent} {s t : State} (hinv : s.Inv) (h : a.step s = some (.next t)) : t.Inv := by
  cases a with
  | enc =>
    obtain ⟨x, hx⟩ := encStep_forEveryDec h
    cases h.symm.trans (hx s.dec)
    exact ⟨Enc.inv_encStep (s := s) hinv.1 h, hinv.2⟩
  | dec =>
    obtain ⟨d, hd⟩ := decStep_forEveryEnc h
    cases h.symm.trans (hd s.enc)
    exact ⟨hinv.1, Dec.inv_decStep (s := s) hinv.2 h⟩
  | host =>
    obtain ⟨u, hu, e⟩ := Option.map_eq_some_iff.1 h
    cases e
    exact State.inv_hostStep hinv hu

/-- Settles O54: the cases of a step, each of which keeps the invariant. -/
theorem stepKeepsInvariant : Obligations.StepKeepsInvariant := by
  unfold Obligations.StepKeepsInvariant
  intro s t hinv h
  rcases step_cases h with ⟨-, rfl⟩ | ⟨a, ha⟩ | rfl
  · exact ⟨trivial, trivial⟩
  · exact State.inv_agentStep hinv ha
  · exact hinv

/-- Settles O55: both engines are IDLE. -/
theorem resetMeetsInvariant : Obligations.ResetMeetsInvariant := by
  unfold Obligations.ResetMeetsInvariant
  exact ⟨trivial, trivial⟩

end Sys2Proof.Machine
end

section
/-! PROOFS of the family of 20_memory: which of its three outcomes a `MemRead` has (R62). An answer is read off the laws of
`memRead` on ports of a known shape; the two others follow its recursion, where a pushed byte keeps a raise and a wait. -/

namespace Sys2Proof.Machine

@[simp] theorem ReadResult.push_eq_eos {b : Byte} {r : ReadResult} : r.push b = .eos ↔ r = .eos := by
  cases r <;> simp [ReadResult.push]

@[simp] theorem ReadResult.push_eq_wait {b : Byte} {r : ReadResult} : r.push b = .wait ↔ r = .wait := by
  cases r <;> simp [ReadResult.push]

/-- A read answers the bytes that the next `n` tokens carry, and only those. -/
theorem memRead_eq_bytes_iff {n : Nat} {port : List InToken} {l : List Byte} :
    memRead n port = .bytes l ↔ l.length = n ∧ port.take n = l.map .byte := by
  constructor
  · intro h
    obtain ⟨rfl, hport⟩ := eq_of_memRead_bytes h
    refine ⟨rfl, ?_⟩
    rw [hport, List.take_left' (List.length_map _)]
  · rintro ⟨rfl, htake⟩
    have hport : port = l.map .byte ++ port.drop l.length := by rw [← htake, List.take_append_drop]
    rw [hport, memRead_bytes]

/-- A read raises exactly when it meets an `eos` before its last byte. -/
theorem memRead_eq_eos_iff {n : Nat} {port : List InToken} : memRead n port = .eos ↔ InToken.eos ∈ port.take n := by
  induction n, port using memRead.induct with
  | case1 port => simp [memRead]
  | case2 n => simp [memRead]
  | case3 n rest => simp [memRead]
  | case4 n b rest ih => simp [memRead, ih]

/-- A read waits exactly when the port ends before its last byte and holds no `eos`. -/
theorem memRead_eq_wait_iff {n : Nat} {port : List InToken} :
    memRead n port = .wait ↔ port.length < n ∧ InToken.eos ∉ port := by
  induction n, port using memRead.induct with
  | case1 port => simp [memRead]
  | case2 n => simp [memRead]
  | case3 n rest => simp [memRead]
  | case4 n b rest ih => simp [memRead, ih]

/-- Settles O13: one equivalence for each outcome of the read. -/
theorem memReadOutcomes : Obligations.MemReadOutcomes := by
  unfold Obligations.MemReadOutcomes
  intro n port
  exact ⟨fun _ => memRead_eq_bytes_iff, memRead_eq_eos_iff, memRead_eq_wait_iff⟩

end Sys2Proof.Machine
end

section
/-! PROOFS of the family of 30_encoding: `decode` and `encode` are inverse on the well-formed items. Bytes and fields
are named by their numbers: the type of a chunk is a range of its opcode byte (R98), a field is a quotient and a
remainder (R100), and the bytes of a chunk are sums of its stored fields (R112). Both directions rest on these. -/

namespace Sys2Proof.Machine

/-! ### The type of a chunk as a range of its opcode byte (R98) -/

/-- Settles O4: the tests of R98 on words are the same tests on numbers. -/
theorem dispatchOnOpcodeByte : Obligations.DispatchOnOpcodeByte := by
  unfold Obligations.DispatchOnOpcodeByte
  intro b
  simp only [chunkKind, BitVec.toNat_eq, BitVec.le_def, BitVec.reduceToNat]

theorem chunkKind_eq_rgba_iff {b : Byte} : chunkKind b = .rgba ↔ b = 0xFF#8 := by
  rw [dispatchOnOpcodeByte, BitVec.toNat_eq]
  split_ifs <;> simp <;> omega

theorem chunkKind_eq_rgb_iff {b : Byte} : chunkKind b = .rgb ↔ b = 0xFE#8 := by
  rw [dispatchOnOpcodeByte, BitVec.toNat_eq]
  split_ifs <;> simp <;> omega

theorem chunkKind_eq_run_iff {b : Byte} : chunkKind b = .run ↔ 192 ≤ b.toNat ∧ b.toNat < 254 := by
  rw [dispatchOnOpcodeByte]
  split_ifs <;> simp <;> omega

theorem chunkKind_eq_luma_iff {b : Byte} : chunkKind b = .luma ↔ 128 ≤ b.toNat ∧ b.toNat < 192 := by
  rw [dispatchOnOpcodeByte]
  split_ifs <;> simp <;> omega

theorem chunkKind_eq_diff_iff {b : Byte} : chunkKind b = .diff ↔ 64 ≤ b.toNat ∧ b.toNat < 128 := by
  rw [dispatchOnOpcodeByte]
  split_ifs <;> simp <;> omega

theorem chunkKind_eq_index_iff {b : Byte} : chunkKind b = .index ↔ b.toNat < 64 := by
  rw [dispatchOnOpcodeByte]
  split_ifs <;> simp <;> omega

/-! ### Fields and biased values (R100) -/

/-- A field is a quotient and a remainder of its byte. -/
theorem field_eq (b : Byte) (lo len : Nat) : field b lo len = b.toNat / 2 ^ lo % 2 ^ len := by
  rw [field, BitVec.extractLsb'_toNat, Nat.shiftRight_eq_div_pow]

theorem field_lt (b : Byte) (lo len : Nat) : field b lo len < 2 ^ len := BitVec.isLt _

/-- A value read back from a stored field is stored as that field again. -/
@[simp] theorem biased_unbias (stored : Nat) (bias : Int) :
    biased (unbias stored bias) bias = BitVec.ofNat 8 stored := by
  rw [biased, unbias, Int.sub_add_cancel, BitVec.ofInt_natCast]

/-- A value in the range of a biased field is read back from some stored field. -/
theorem exists_eq_unbias {v bias : Int} {n : Nat} (hlo : -bias ≤ v) (hhi : v < n - bias) :
    ∃ stored < n, v = unbias stored bias :=
  ⟨(v + bias).toNat, by omega, by rw [unbias]; omega⟩

/-- The value read from a biased field of `len` bits is in the field's range. -/
theorem unbias_field_mem (b : Byte) (lo len : Nat) (bias : Int) :
    -bias ≤ unbias (field b lo len) bias ∧ unbias (field b lo len) bias ≤ 2 ^ len - bias - 1 := by
  have h : ((field b lo len : Nat) : Int) < 2 ^ len := by exact_mod_cast field_lt b lo len
  rw [unbias]
  omega

/-! ### The bytes of a chunk as sums of its stored fields (R112) -/

/-- Joining a field below bit `k` to a multiple of `2 ^ k` adds it. -/
theorem ofNat_or_ofNat {k low : Nat} (high : Nat) (h : low < 2 ^ k) :
    BitVec.ofNat 8 (2 ^ k * high) ||| BitVec.ofNat 8 low = BitVec.ofNat 8 (2 ^ k * high + low) := by
  rw [Nat.two_pow_add_eq_or_of_lt h, BitVec.ofNat_or]

theorem ofNat_toNat (b : Byte) : BitVec.ofNat 8 b.toNat = b := by
  rw [BitVec.ofNat_toNat, BitVec.setWidth_eq]

theorem ofNat_shiftLeft (n k : Nat) : BitVec.ofNat 8 n <<< k = BitVec.ofNat 8 (2 ^ k * n) := by
  apply BitVec.eq_of_toNat_eq
  rw [BitVec.toNat_shiftLeft, BitVec.toNat_ofNat, BitVec.toNat_ofNat, Nat.shiftLeft_eq, Nat.mod_mul_mod, Nat.mul_comm]

theorem encode_luma_unbias {ddr dg ddb : Nat} (hg : dg < 64) (hb : ddb < 16) :
    encode (.luma (unbias ddr 8) (unbias dg 32) (unbias ddb 8))
      = [BitVec.ofNat 8 (128 + dg), BitVec.ofNat 8 (16 * ddr + ddb)] := by
  have hop : 0x80#8 ||| BitVec.ofNat 8 dg = BitVec.ofNat 8 (128 + dg) := ofNat_or_ofNat (k := 6) 2 hg
  have hd : BitVec.ofNat 8 ddr <<< 4 ||| BitVec.ofNat 8 ddb = BitVec.ofNat 8 (16 * ddr + ddb) := by
    rw [ofNat_shiftLeft]
    exact ofNat_or_ofNat ddr hb
  simp only [encode, biased_unbias, hop, hd]

theorem encode_diff_unbias {dr dg db : Nat} (hr : dr < 4) (hg : dg < 4) (hb : db < 4) :
    encode (.diff (unbias dr 2) (unbias dg 2) (unbias db 2)) = [BitVec.ofNat 8 (64 + 16 * dr + 4 * dg + db)] := by
  have h1 : 0x40#8 ||| BitVec.ofNat 8 dr <<< 4 = BitVec.ofNat 8 (64 + 16 * dr) := by
    rw [ofNat_shiftLeft]
    exact ofNat_or_ofNat (k := 6) 1 (by omega)
  have h2 : BitVec.ofNat 8 (64 + 16 * dr) ||| BitVec.ofNat 8 dg <<< 2 = BitVec.ofNat 8 (64 + 16 * dr + 4 * dg) := by
    rw [ofNat_shiftLeft, show 64 + 16 * dr = 2 ^ 4 * (4 + dr) by omega]
    exact ofNat_or_ofNat (4 + dr) (by omega)
  have h3 : BitVec.ofNat 8 (64 + 16 * dr + 4 * dg) ||| BitVec.ofNat 8 db
      = BitVec.ofNat 8 (64 + 16 * dr + 4 * dg + db) := by
    rw [show 64 + 16 * dr + 4 * dg = 2 ^ 2 * (16 + 4 * dr + dg) by omega]
    exact ofNat_or_ofNat (16 + 4 * dr + dg) hb
  simp only [encode, biased_unbias, h1, h2, h3]

/-! ### The decoder by the type of the chunk -/

section
variable {op : Byte} (rest : List Byte)

theorem decodeChunk_rgba (hk : chunkKind op = .rgba) (r g b a : Byte) :
    decodeChunk (op :: r :: g :: b :: a :: rest) = .ok (.rgba r g b a, rest) := by
  simp only [decodeChunk, hk]

theorem decodeChunk_rgb (hk : chunkKind op = .rgb) (r g b : Byte) :
    decodeChunk (op :: r :: g :: b :: rest) = .ok (.rgb r g b, rest) := by
  simp only [decodeChunk, hk]

theorem decodeChunk_run (hk : chunkKind op = .run) :
    decodeChunk (op :: rest) = .ok (.run (field op 0 6 + 1), rest) := by
  simp only [decodeChunk, hk]

theorem decodeChunk_luma (hk : chunkKind op = .luma) (d : Byte) :
    decodeChunk (op :: d :: rest)
      = .ok (.luma (unbias (field d 4 4) 8) (unbias (field op 0 6) 32) (unbias (field d 0 4) 8), rest) := by
  simp only [decodeChunk, hk]

theorem decodeChunk_diff (hk : chunkKind op = .diff) :
    decodeChunk (op :: rest)
      = .ok (.diff (unbias (field op 4 2) 2) (unbias (field op 2 2) 2) (unbias (field op 0 2) 2), rest) := by
  simp only [decodeChunk, hk]

theorem decodeChunk_index (hk : chunkKind op = .index) :
    decodeChunk (op :: rest) = .ok (.index (op.extractLsb' 0 6), rest) := by
  simp only [decodeChunk, hk]

end

/-- With the bytes of its length there, an opcode byte is a chunk of that length (R99, R102). -/
theorem decodeChunk_complete {op : Byte} {rest : List Byte} (h : chunkLength op ≤ rest.length + 1) :
    ∃ i, decodeChunk (op :: rest) = .ok (i, (op :: rest).drop (chunkLength op)) ∧ i.length = chunkLength op := by
  cases hk : chunkKind op <;> simp only [chunkLength, hk, kindLength] at h ⊢
  case rgba =>
    match rest with
    | r :: g :: b :: a :: tl => exact ⟨_, decodeChunk_rgba tl hk r g b a, rfl⟩
  case rgb =>
    match rest with
    | r :: g :: b :: tl => exact ⟨_, decodeChunk_rgb tl hk r g b, rfl⟩
  case run => exact ⟨_, decodeChunk_run rest hk, rfl⟩
  case luma =>
    match rest with
    | d :: tl => exact ⟨_, decodeChunk_luma tl hk d, rfl⟩
  case diff => exact ⟨_, decodeChunk_diff rest hk, rfl⟩
  case index => exact ⟨_, decodeChunk_index rest hk, rfl⟩

/-- The only way a chunk fails to decode is that its bytes are not there (R102). -/
theorem decodeChunk_error {bytes : List Byte} {e : DecodeError} (h : decodeChunk bytes = .error e) :
    e = .truncated := by
  unfold decodeChunk at h
  split at h
  · cases h
    rfl
  · split at h
    case h_1 | h_2 | h_4 =>
      split at h <;> cases h
      rfl
    case h_3 | h_5 | h_6 => cases h

/-- Settles O5: a complete chunk by its type; an incomplete one decodes to nothing, for a chunk has all its own bytes. -/
theorem everyOpcodeByteDecodes : Obligations.EveryOpcodeByteDecodes := by
  unfold Obligations.EveryOpcodeByteDecodes
  intro op rest
  refine ⟨decodeChunk_complete, fun hshort => ?_⟩
  rw [decode]
  cases hd : decodeChunk (op :: rest) with
  | error e => rw [decodeChunk_error hd]
  | ok r => exact absurd (decodeChunk_own_bytes hd).1 (Nat.not_le.2 hshort)

/-! ### Decoding an encoding -/

theorem decodeChunk_encode_run {n : Nat} (h : Instr.WellFormed (.run n)) (rest : List Byte) :
    decodeChunk (encode (.run n) ++ rest) = .ok (.run n, rest) := by
  obtain ⟨k, rfl⟩ := Nat.exists_eq_add_of_le' h.1
  have hk : k < 62 := Nat.lt_of_succ_le h.2
  rw [encode_run_succ (by omega), List.singleton_append, decodeChunk_run, field_eq, BitVec.toNat_ofNat]
  · rw [show (0xC0 + k) % 2 ^ 8 / 2 ^ 0 % 2 ^ 6 = k by omega]
  · rw [chunkKind_eq_run_iff, BitVec.toNat_ofNat]
    omega

theorem decodeChunk_encode_luma {ddr dg ddb : Int} (h : Instr.WellFormed (.luma ddr dg ddb)) (rest : List Byte) :
    decodeChunk (encode (.luma ddr dg ddb) ++ rest) = .ok (.luma ddr dg ddb, rest) := by
  obtain ⟨⟨hr0, hr1⟩, ⟨hg0, hg1⟩, hb0, hb1⟩ := h
  obtain ⟨r, hr, rfl⟩ := exists_eq_unbias (n := 16) hr0 (by omega)
  obtain ⟨g, hg, rfl⟩ := exists_eq_unbias (n := 64) hg0 (by omega)
  obtain ⟨b, hb, rfl⟩ := exists_eq_unbias (n := 16) hb0 (by omega)
  rw [encode_luma_unbias hg hb, List.cons_append, List.singleton_append, decodeChunk_luma]
  · simp only [field_eq, BitVec.toNat_ofNat]
    congr <;> omega
  · rw [chunkKind_eq_luma_iff, BitVec.toNat_ofNat]
    omega

theorem decodeChunk_encode_diff {dr dg db : Int} (h : Instr.WellFormed (.diff dr dg db)) (rest : List Byte) :
    decodeChunk (encode (.diff dr dg db) ++ rest) = .ok (.diff dr dg db, rest) := by
  obtain ⟨⟨hr0, hr1⟩, ⟨hg0, hg1⟩, hb0, hb1⟩ := h
  obtain ⟨r, hr, rfl⟩ := exists_eq_unbias (n := 4) hr0 (by omega)
  obtain ⟨g, hg, rfl⟩ := exists_eq_unbias (n := 4) hg0 (by omega)
  obtain ⟨b, hb, rfl⟩ := exists_eq_unbias (n := 4) hb0 (by omega)
  rw [encode_diff_unbias hr hg hb, List.singleton_append, decodeChunk_diff]
  · simp only [field_eq, BitVec.toNat_ofNat]
    congr <;> omega
  · rw [chunkKind_eq_diff_iff, BitVec.toNat_ofNat]
    omega

theorem decodeChunk_encode_index (i : CacheIndex) (rest : List Byte) :
    decodeChunk (encode (.index i) ++ rest) = .ok (.index i, rest) := by
  have hi : (i.setWidth 8).toNat = i.toNat := BitVec.toNat_setWidth_of_le (by decide)
  rw [encode, List.singleton_append, decodeChunk_index]
  · congr
    apply BitVec.eq_of_toNat_eq
    rw [BitVec.extractLsb'_toNat, hi, Nat.shiftRight_zero, Nat.mod_eq_of_lt i.isLt]
  · rw [chunkKind_eq_index_iff, hi]
    exact i.isLt

/-- The four bytes of a word, most significant first, joined again (40_byte_primitives R120, R121). -/
theorem u32_extractLsb' (v : Word32) :
    u32 (v.extractLsb' 24 8) (v.extractLsb' 16 8) (v.extractLsb' 8 8) (v.extractLsb' 0 8) = v := by
  rw [u32, BitVec.extractLsb'_append_extractLsb'_eq_extractLsb' (start₁ := 16) (len₁ := 8) (start₂ := 24) rfl,
    BitVec.extractLsb'_append_extractLsb'_eq_extractLsb' (start₁ := 8) (len₁ := 8) (start₂ := 16) rfl,
    BitVec.extractLsb'_append_extractLsb'_eq_extractLsb' (start₁ := 0) (len₁ := 8) (start₂ := 8) rfl]
  exact BitVec.extractLsb'_eq_self

theorem decodeHeaderRecord_encodeHeader (w h : Word32) (ch cs : Byte) (rest : List Byte) :
    decodeHeaderRecord (encodeHeader w h ch cs ++ rest) = .ok (.header w h ch cs, rest) := by
  simp only [encodeHeader, magic, be32, List.cons_append, List.nil_append, decodeHeaderRecord, if_true, u32_extractLsb']

theorem decodeTrailer_endMarkerList (rest : List Byte) :
    decodeTrailer (endMarkerList ++ rest) = .ok (.endMarker, rest) := by
  have hlen : endMarkerList.length = endMarkerBytes := rfl
  have hlong : ¬ (endMarkerList ++ rest).length < endMarkerBytes := by
    rw [List.length_append, hlen]
    omega
  rw [decodeTrailer, if_neg hlong, List.take_left' hlen, if_pos rfl, List.drop_left' hlen]

/-- Settles O1: one instruction at a time. -/
theorem decodeOfEncode : Obligations.DecodeOfEncode := by
  unfold Obligations.DecodeOfEncode
  intro i rest hwf
  cases i with
  | rgba r g b a => exact decodeChunk_rgba (op := 0xFF) rest rfl r g b a
  | rgb r g b => exact decodeChunk_rgb (op := 0xFE) rest rfl r g b
  | run n => exact decodeChunk_encode_run hwf rest
  | luma ddr dg ddb => exact decodeChunk_encode_luma hwf rest
  | diff dr dg db => exact decodeChunk_encode_diff hwf rest
  | index i => exact decodeChunk_encode_index i rest
  | header w h ch cs => exact decodeHeaderRecord_encodeHeader w h ch cs rest
  | endMarker => exact decodeTrailer_endMarkerList rest

/-! ### Encoding what was decoded -/

section
variable {op : Byte}

theorem wellFormed_encode_run_field (hk : chunkKind op = .run) :
    Instr.WellFormed (.run (field op 0 6 + 1)) ∧ encode (.run (field op 0 6 + 1)) = [op] := by
  obtain ⟨hlo, hhi⟩ := chunkKind_eq_run_iff.1 hk
  have hop : 0xC0 + field op 0 6 = op.toNat := by
    rw [field_eq]
    omega
  refine ⟨⟨Nat.le_add_left _ _, ?_⟩, ?_⟩
  · rw [runMax]
    omega
  · rw [encode_run_succ (field_lt op 0 6), hop, ofNat_toNat]

theorem wellFormed_encode_luma_field (hk : chunkKind op = .luma) (d : Byte) :
    Instr.WellFormed (.luma (unbias (field d 4 4) 8) (unbias (field op 0 6) 32) (unbias (field d 0 4) 8))
      ∧ encode (.luma (unbias (field d 4 4) 8) (unbias (field op 0 6) 32) (unbias (field d 0 4) 8)) = [op, d] := by
  obtain ⟨hlo, hhi⟩ := chunkKind_eq_luma_iff.1 hk
  have hop : 128 + field op 0 6 = op.toNat := by
    rw [field_eq]
    omega
  have hd : 16 * field d 4 4 + field d 0 4 = d.toNat := by
    have := d.isLt
    rw [field_eq, field_eq]
    omega
  refine ⟨⟨unbias_field_mem d 4 4 8, unbias_field_mem op 0 6 32, unbias_field_mem d 0 4 8⟩, ?_⟩
  rw [encode_luma_unbias (field_lt op 0 6) (field_lt d 0 4), hop, hd, ofNat_toNat, ofNat_toNat]

theorem wellFormed_encode_diff_field (hk : chunkKind op = .diff) :
    Instr.WellFormed (.diff (unbias (field op 4 2) 2) (unbias (field op 2 2) 2) (unbias (field op 0 2) 2))
      ∧ encode (.diff (unbias (field op 4 2) 2) (unbias (field op 2 2) 2) (unbias (field op 0 2) 2)) = [op] := by
  obtain ⟨hlo, hhi⟩ := chunkKind_eq_diff_iff.1 hk
  have hop : 64 + 16 * field op 4 2 + 4 * field op 2 2 + field op 0 2 = op.toNat := by
    rw [field_eq, field_eq, field_eq]
    omega
  refine ⟨⟨unbias_field_mem op 4 2 2, unbias_field_mem op 2 2 2, unbias_field_mem op 0 2 2⟩, ?_⟩
  rw [encode_diff_unbias (field_lt op 4 2) (field_lt op 2 2) (field_lt op 0 2), hop, ofNat_toNat]

theorem encode_index_field (hk : chunkKind op = .index) : encode (.index (op.extractLsb' 0 6)) = [op] := by
  have hop : ((op.extractLsb' 0 6).setWidth 8).toNat = op.toNat := by
    rw [BitVec.toNat_setWidth_of_le (by decide), BitVec.extractLsb'_toNat, Nat.shiftRight_zero,
      Nat.mod_eq_of_lt (chunkKind_eq_index_iff.1 hk)]
  rw [encode, BitVec.eq_of_toNat_eq hop]

end

/-- Settles O2: the branches of the decoder, each with the encoding of the fields it has read. -/
theorem encodeOfDecodedChunk : Obligations.EncodeOfDecodedChunk := by
  unfold Obligations.EncodeOfDecodedChunk
  intro bytes rest i h
  refine and_left_comm.1 ⟨(region_length_of_decode_chunks h).1, ?_⟩
  simp only [decode] at h
  unfold decodeChunk at h
  split at h
  · cases h
  · next op tl =>
    split at h
    · next hk =>
      split at h <;> cases h
      exact ⟨trivial, by rw [chunkKind_eq_rgba_iff.1 hk]; rfl⟩
    · next hk =>
      split at h <;> cases h
      exact ⟨trivial, by rw [chunkKind_eq_rgb_iff.1 hk]; rfl⟩
    · next hk =>
      cases h
      obtain ⟨hwf, he⟩ := wellFormed_encode_run_field hk
      exact ⟨hwf, by rw [he]; rfl⟩
    · next hk =>
      split at h <;> cases h
      next d =>
        obtain ⟨hwf, he⟩ := wellFormed_encode_luma_field hk d
        exact ⟨hwf, by rw [he]; rfl⟩
    · next hk =>
      cases h
      obtain ⟨hwf, he⟩ := wellFormed_encode_diff_field hk
      exact ⟨hwf, by rw [he]; rfl⟩
    · next hk =>
      cases h
      exact ⟨trivial, by rw [encode_index_field hk]; rfl⟩

/-! ### Words written out -/

/-- Settles O3: the decoder evaluated on each of the eight words. -/
theorem sampleWordsDecode : Obligations.SampleWordsDecode := by
  unfold Obligations.SampleWordsDecode
  exact ⟨rfl, rfl, rfl, rfl, rfl, rfl, rfl, rfl⟩

end Sys2Proof.Machine
end

section
/-! PROOFS of the family of 40_byte_primitives: a word and its four bytes (R120, R121), and the wrap of a channel moved by a
delta (R122, R123). The LUMA and DIFF chunks of DEC are one-pixel chunks whose colour is `prev` moved by three deltas. -/

namespace Sys2Proof.Machine

/-! ### Words and their bytes (R120, R121) -/

/-- A bit field of a word is a quotient and a remainder of its value. -/
theorem extractLsb'_toNat_eq_div_mod (v : Word32) (lo len : Nat) :
    (v.extractLsb' lo len).toNat = v.toNat / 2 ^ lo % 2 ^ len := by
  rw [BitVec.extractLsb'_toNat, Nat.shiftRight_eq_div_pow]

/-- The value of bits followed by a byte. -/
theorem toNat_append_byte {n : Nat} (x : BitVec n) (b : Byte) : (x ++ b).toNat = x.toNat * 2 ^ 8 + b.toNat := by
  rw [BitVec.toNat_append, ← Nat.shiftLeft_add_eq_or_of_lt b.isLt, Nat.shiftLeft_eq]

theorem u32_toNat (b0 b1 b2 b3 : Byte) :
    (u32 b0 b1 b2 b3).toNat = b0.toNat * 2 ^ 24 + b1.toNat * 2 ^ 16 + b2.toNat * 2 ^ 8 + b3.toNat := by
  rw [u32, toNat_append_byte, toNat_append_byte, toNat_append_byte]
  omega

/-- Each byte of a joined word is split off at the byte boundary it was joined at. -/
theorem be32_u32 (b0 b1 b2 b3 : Byte) : be32 (u32 b0 b1 b2 b3) = [b0, b1, b2, b3] := by
  have h0 : (b0 ++ b1 ++ b2 ++ b3).extractLsb' 24 8 = b0 := by
    rw [BitVec.extractLsb'_append_eq_of_le (by decide), BitVec.extractLsb'_append_eq_of_le (by decide),
      BitVec.extractLsb'_append_eq_left]
  have h1 : (b0 ++ b1 ++ b2 ++ b3).extractLsb' 16 8 = b1 := by
    rw [BitVec.extractLsb'_append_eq_of_le (by decide), BitVec.extractLsb'_append_eq_of_le (by decide),
      BitVec.extractLsb'_append_eq_right]
  have h2 : (b0 ++ b1 ++ b2 ++ b3).extractLsb' 8 8 = b2 := by
    rw [BitVec.extractLsb'_append_eq_of_le (by decide), BitVec.extractLsb'_append_eq_right]
  have h3 : (b0 ++ b1 ++ b2 ++ b3).extractLsb' 0 8 = b3 := BitVec.extractLsb'_append_eq_right
  rw [u32, be32, h0, h1, h2, h3]

/-- Settles O6: both inverses, and the values of the bytes and of the word. -/
theorem bigEndianInverse : Obligations.BigEndianInverse := by
  unfold Obligations.BigEndianInverse
  refine ⟨fun v => ⟨_, _, _, _, rfl, u32_extractLsb' v, ?_⟩, fun b0 b1 b2 b3 => ?_⟩
  · have htop : v.toNat / 2 ^ 24 < 2 ^ 8 := by
      have := v.isLt
      omega
    exact ⟨(extractLsb'_toNat_eq_div_mod v 24 8).trans (Nat.mod_eq_of_lt htop), extractLsb'_toNat_eq_div_mod v 16 8,
      extractLsb'_toNat_eq_div_mod v 8 8, by rw [extractLsb'_toNat_eq_div_mod, pow_zero, Nat.div_one]⟩
  · exact ⟨be32_u32 b0 b1 b2 b3, u32_toNat b0 b1 b2 b3⟩

/-! ### The wrap modulo 256 (R122, R123) -/

theorem wrap8_toNat (v : Int) : ((wrap8 v).toNat : Int) = v % 256 := by
  rw [wrap8, BitVec.toNat_ofNat]
  omega

/-- DOC's formula: adding 256 makes the truncating remainder nonnegative, where it is the floor modulo (R123). -/
theorem tmod_tmod_add_256 (v : Int) : (v.tmod 256 + 256).tmod 256 = v % 256 := by
  have hlow : -256 < v.tmod 256 := Int.lt_tmod_of_pos v (by decide)
  have hdiv : v.tmod 256 + 256 * v.tdiv 256 = v := Int.tmod_add_mul_tdiv v 256
  rw [Int.tmod_eq_emod_of_nonneg (by omega)]
  omega

/-- Settles O9: the wrap's value, and DOC's formula. -/
theorem wrapIsFloorModulo : Obligations.WrapIsFloorModulo := by
  unfold Obligations.WrapIsFloorModulo
  exact fun v => ⟨wrap8_toNat v, tmod_tmod_add_256 v⟩

/-! ### Chunks that move `prev` (42_chunk_decoder R147, R148) -/

theorem moveChannel_toNat (ch : Byte) (d : Int) : ((moveChannel ch d).toNat : Int) = ((ch.toNat : Int) + d) % 256 :=
  wrap8_toNat _

/-- A one-pixel chunk that moves `prev` by three deltas, in BODY with a pixel to go. -/
theorem chunkStep_moveColor {s : State} (hp : s.dec.phase = .body) (hc : s.dec.count < s.dec.target) (len : Nat)
    (dr dg db : Int) :
    ∃ t c, chunkStep len (fun d => d.emitPixel (moveColor d.prev dr dg db) true) s = .next t ∧ s.OnlyDec t
      ∧ s.dec.OnePixel c len t.dec
      ∧ (c.r.toNat : Int) = ((s.dec.prev.r.toNat : Int) + dr) % 256
      ∧ (c.g.toNat : Int) = ((s.dec.prev.g.toNat : Int) + dg) % 256
      ∧ (c.b.toNat : Int) = ((s.dec.prev.b.toNat : Int) + db) % 256
      ∧ c.a = s.dec.prev.a := by
  obtain ⟨t, ht, honly, hpixel⟩ := chunkStep_onePixel hp hc len fun d => moveColor d.prev dr dg db
  exact ⟨t, _, ht, honly, hpixel, moveChannel_toNat _ _, moveChannel_toNat _ _, moveChannel_toNat _ _, rfl⟩

/-- Settles O16: LUMA moves red and blue by their deltas relative to green. -/
theorem lumaMovesChannels : Obligations.LumaMovesChannels := by
  unfold Obligations.LumaMovesChannels
  intro s ddr dg ddb hp hc
  exact chunkStep_moveColor hp hc 2 (ddr + dg) dg (ddb + dg)

/-- Settles O17: DIFF moves each channel by its own delta. -/
theorem diffMovesChannels : Obligations.DiffMovesChannels := by
  unfold Obligations.DiffMovesChannels
  intro s dr dg db hp hc
  exact chunkStep_moveColor hp hc 1 dr dg db

end Sys2Proof.Machine
end

section
/-! PROOFS of the family of 41_color_cache: the hash (R130, R131), the slots after stores (R133 to R135), and the lockstep of
the two caches over a changed pixel (R136, R137). -/

namespace Sys2Proof.Machine

/-! ### The hash (R130, R131) -/

theorem colorHash_toNat (c : Color) :
    (colorHash c).toNat = (c.r.toNat * 3 + c.g.toNat * 5 + c.b.toNat * 7 + c.a.toNat * 11) % 64 :=
  BitVec.toNat_ofNat _ _

/-- The largest sum is that of four channels at 255. -/
theorem hashSum_le (c : Color) : hashSum c ≤ 6630 := by
  have := c.r.isLt
  have := c.g.isLt
  have := c.b.isLt
  have := c.a.isLt
  rw [hashSum]
  omega

/-- Settles O10: the sum's value and bound; 64 divides what the high bits of a channel add to the sum. -/
theorem hashOfLowBits : Obligations.HashOfLowBits := by
  unfold Obligations.HashOfLowBits
  refine fun c => ⟨colorHash_toNat c, hashSum_le c, ?_⟩
  rw [colorHash_toNat]
  omega

/-! ### The slots after stores (R133 to R135) -/

/-- Settles O11: a slot number below 64 is the number of a cache index, and the hash is one of them. -/
theorem storeWritesItsHashSlot : Obligations.StoreWritesItsHashSlot := by
  unfold Obligations.StoreWritesItsHashSlot
  constructor
  · intro m c j hj
    obtain ⟨i, rfl⟩ : ∃ i : CacheIndex, i.toNat = j := ⟨.ofNatLT j hj, rfl⟩
    simp only [← colorHash_toNat, ← BitVec.toNat_eq]
    exact Cache.lookup_store_eq m c i
  · exact fun j hj => Cache.lookup_clear (.ofNatLT j hj)

/-- After stores into any cache a slot holds the last colour stored with its hash, or what it held before. -/
theorem Cache.lookup_foldl_store (stored : List Color) (m : Cache) (i : CacheIndex) :
    (stored.foldl Cache.store m).lookup i
      = ((stored.filter fun c => colorHash c = i).getLast?).getD (m.lookup i) := by
  induction stored generalizing m with
  | nil => rfl
  | cons c rest ih =>
    rw [List.foldl_cons, ih, Cache.lookup_store_eq]
    by_cases h : i = colorHash c
    · simp [h, List.getLast?_cons]
    · simp [h, Ne.symm h]

/-- Settles O12: stores into the cleared cache, whose slots hold (0,0,0,0). -/
theorem slotHoldsLastStored : Obligations.SlotHoldsLastStored := by
  unfold Obligations.SlotHoldsLastStored
  intro stored i
  rw [Cache.lookup_foldl_store, Cache.lookup_clear]
  rfl

/-- Settles O19: by consistency a colour found in a slot has that slot's hash, unless it is (0,0,0,0), whose hash is 0. -/
theorem indexStoreIsVisibleOnlyInSlotZero : Obligations.IndexStoreIsVisibleOnlyInSlotZero := by
  unfold Obligations.IndexStoreIsVisibleOnlyInSlotZero
  intro s t k hp hc hcons h
  obtain ⟨t', ht, -, hpixel⟩ := chunkStep_onePixel hp hc 1 fun d => d.cache.lookup k
  obtain rfl : t' = t := Host.Outcome.next.inj (ht.symm.trans h)
  constructor
  · intro hk i
    rw [hpixel.cache, hcons k hk]
    split
    · next e => rw [e]
    · rfl
  · intro hk i
    rw [hpixel.cache, hk]
    rfl

/-! ### Lockstep over a changed pixel (R136, R137) -/

/-- The delta ENC takes moves the channel of `prev` back to the pixel's (43_chunk_encoder R186, 42_chunk_decoder R148). -/
@[simp] theorem moveChannel_channelDelta (ch prev : Byte) : moveChannel prev (channelDelta ch prev) = ch := by
  have hmove : ((moveChannel prev (channelDelta ch prev)).toNat : Int) = ch.toNat % 256 := by
    rw [moveChannel_toNat, channelDelta, add_sub_cancel]
  have := ch.isLt
  exact BitVec.eq_of_toNat_eq (by omega)

theorem moveColor_channelDelta {prev c : Color} (ha : c.a = prev.a) :
    moveColor prev (channelDelta c.r prev.r) (channelDelta c.g prev.g) (channelDelta c.b prev.b) = c := by
  simp [moveColor, ← ha]

/-- A literal chunk is a one-pixel chunk, and beside the `prev` it was made for its pixel is `c` (43_chunk_encoder R177 to
R180). -/
theorem exec_literalChunk (s : State) (c : Color) :
    ∃ f : Dec → Color, f s.dec = c
      ∧ exec (literalChunk s.dec.prev c) s
        = chunkStep (literalChunk s.dec.prev c).length (fun d => d.emitPixel (f d) true) s := by
  unfold literalChunk
  dsimp only
  split_ifs with ha
  · exact ⟨fun d => moveColor d.prev _ _ _, moveColor_channelDelta ha, rfl⟩
  · exact ⟨fun d => moveColor d.prev (_ - _ + _) _ (_ - _ + _),
      by simpa only [sub_add_cancel] using moveColor_channelDelta ha, rfl⟩
  · exact ⟨fun d => ⟨c.r, c.g, c.b, d.prev.a⟩, congrArg (Color.mk c.r c.g c.b) ha.symm, rfl⟩
  · exact ⟨fun _ => c, rfl, rfl⟩

/-- The chunk chosen for `c` from DEC's own cache and `prev`, executed in BODY with a pixel to go, emits `c`
(43_chunk_encoder R175, R183). -/
theorem exec_chooseChunk {s : State} (hp : s.dec.phase = .body) (hc : s.dec.count < s.dec.target) (c : Color) :
    ∃ t, exec (chooseChunk s.dec.cache s.dec.prev c) s = .next t ∧ s.OnlyDec t
      ∧ s.dec.OnePixel c (chooseChunk s.dec.cache s.dec.prev c).length t.dec := by
  unfold chooseChunk
  split
  · next hit =>
    have h := chunkStep_onePixel hp hc 1 fun d => d.cache.lookup (colorHash c)
    rwa [hit] at h
  · obtain ⟨f, hf, hexec⟩ := exec_literalChunk s c
    have h := chunkStep_onePixel hp hc (literalChunk s.dec.prev c).length f
    rwa [hf, ← hexec] at h

/-- ENC after a pixel that differs from `prev` (43_chunk_encoder R172, R174, R181). -/
theorem Enc.encodePixel_change {x : Enc} {c : Color} (h : c ≠ x.prev) :
    x.encodePixel c = { x.encodeChange c with prev := c, count := (x.encodeChange c).count + 1 } := by
  rw [Enc.encodePixel, if_neg h]

/-- Settles O56: DEC emits and stores the pixel its own cache and `prev`, which are ENC's, chose the chunk for. -/
theorem chosenChunkKeepsLockstep : Obligations.ChosenChunkKeepsLockstep := by
  unfold Obligations.ChosenChunkKeepsLockstep
  intro s c hp hc hcache hprev hne
  obtain ⟨hregion, hwf⟩ := chooseChunk_wellFormed s.enc.cache s.enc.prev c
  obtain ⟨t, hexec, -, hpixel⟩ := exec_chooseChunk hp hc c
  rw [hcache, hprev] at hexec
  rw [Enc.encodePixel_change hne, Enc.encodeChange_eq]
  refine ⟨_, t, (List.append_assoc _ _ _).symm, hregion, hwf, hexec, hpixel.pixOut, hpixel.prev, hpixel.prev, fun k => ?_⟩
  rw [hpixel.cache, hcache]
  exact (lookup_cacheAfterChange _ _ _).symm

end Sys2Proof.Machine
end

section
/-! PROOFS of the family of 42_chunk_decoder: what RGBA, RGB, INDEX and RUN emit (R144 to R146, R149), the faults of the
header step and of the chunk step (R141, R152, R153), and that every decode ends (R158). -/

namespace Sys2Proof.Machine

/-! ### The chunks (R142 to R151) -/

/-- Settles O14: a one-pixel chunk of the colour it carries. -/
theorem rgbaEmitsItsColor : Obligations.RgbaEmitsItsColor := by
  unfold Obligations.RgbaEmitsItsColor
  intro s r g b a hp hc
  exact chunkStep_onePixel hp hc 5 fun _ => ⟨r, g, b, a⟩

/-- Settles O15: a one-pixel chunk of the colour it carries, with the alpha of `prev`. -/
theorem rgbInheritsAlpha : Obligations.RgbInheritsAlpha := by
  unfold Obligations.RgbInheritsAlpha
  intro s r g b hp hc
  exact chunkStep_onePixel hp hc 4 fun d => ⟨r, g, b, d.prev.a⟩

/-- Settles O18: a one-pixel chunk of the colour in its slot. -/
theorem indexEmitsItsSlot : Obligations.IndexEmitsItsSlot := by
  unfold Obligations.IndexEmitsItsSlot
  intro s k hp hc
  exact chunkStep_onePixel hp hc 1 fun d => d.cache.lookup k

theorem exec_run_body {s : State} (hp : s.dec.phase = .body) (n : Nat) :
    exec (.run n) s = .next { s with dec := Dec.endChunk 1 (s.dec.emitRun n) } :=
  chunkStep_body hp 1 _

/-- Settles O20: the pixels of a run that fits, and then the end of a chunk. -/
theorem runRepeatsPrevious : Obligations.RunRepeatsPrevious := by
  unfold Obligations.RunRepeatsPrevious
  intro s n _ hp hfit
  refine ⟨_, exec_run_body hp n, ⟨rfl, rfl, rfl, rfl, rfl⟩, ?_⟩
  dsimp only
  rw [Dec.emitRun_ok (.inl hfit), Dec.endChunk]
  refine ⟨by simp, by simp, by simp, by simp, Dec.finishChunk_end 1 hp rfl rfl rfl rfl rfl, ?_⟩
  exact .finishChunk (by constructor <;> rfl) 1

/-- Settles O21: the pixels of the run that fit, and then the raise, which ends the step. -/
theorem runPastTargetOverruns : Obligations.RunPastTargetOverruns := by
  unfold Obligations.RunPastTargetOverruns
  intro s n hp hlt hover
  refine ⟨_, exec_run_body hp n, ⟨rfl, rfl, rfl, rfl, rfl⟩, ?_⟩
  dsimp only
  rw [Dec.emitRun_overrun hlt.le hover, Dec.endChunk]
  exact ⟨rfl, rfl, rfl, rfl, rfl, rfl, rfl, rfl, rfl, .raise (by constructor <;> rfl) _ _⟩

/-! ### The faults of the header step (R141; 60_exceptions R219) -/

theorem Dec.acceptHeader_channels {ch : Byte} (h : ¬ LegalChannels ch) (cfg : Config) (w hg : Word32) (cs : Byte)
    (d : Dec) : d.acceptHeader cfg w hg ch cs = d.raise .unsupportedChannel 0 := by
  rw [Dec.acceptHeader, if_pos h]

theorem Dec.acceptHeader_limit {cfg : Config} {w hg : Word32} {ch : Byte} (h : LegalChannels ch)
    (hm : cfg.maxPixels < pixelCount w hg) (cs : Byte) (d : Dec) :
    d.acceptHeader cfg w hg ch cs = d.raise .dimensionLimit 0 := by
  rw [Dec.acceptHeader, if_neg (not_not.2 h), if_pos hm]

/-- Settles O25: the channel count is judged first, the size second, and each verdict is a raise. -/
theorem headerRejected : Obligations.HeaderRejected := by
  unfold Obligations.HeaderRejected
  intro s w h ch cs hp
  rw [exec_header hp]
  constructor
  · intro hch
    rw [Dec.acceptHeader_channels hch]
    rfl
  · intro hch hm
    rw [Dec.acceptHeader_limit hch hm]
    rfl

theorem decodeHeaderRecord_badMagic {bytes : List Byte} (hl : headerBytes ≤ bytes.length) (hm : bytes.take 4 ≠ magic) :
    decodeHeaderRecord bytes = .error .badMagic := by
  match bytes, hl with
  | _ :: _ :: _ :: _ :: _ :: _ :: _ :: _ :: _ :: _ :: _ :: _ :: _ :: _ :: _, _ => exact if_neg hm

theorem decodeHeaderRecord_magic {bytes : List Byte} (hl : headerBytes ≤ bytes.length) (hm : bytes.take 4 = magic) :
    ∃ w h ch cs rest, decodeHeaderRecord bytes = .ok (.header w h ch cs, rest) := by
  match bytes, hl with
  | _ :: _ :: _ :: _ :: _ :: _ :: _ :: _ :: _ :: _ :: _ :: _ :: _ :: _ :: _, _ => exact ⟨_, _, _, _, _, if_pos hm⟩

/-- An `eos` before the fourteenth byte (R152; 60_exceptions R214 (a)). -/
theorem fetchHeader_eos {d : Dec} {bytes : List Byte} {more : List InToken}
    (hb : d.stream = bytes.map .byte ++ .eos :: more) (hl : bytes.length < headerBytes) :
    fetchHeader d = .error .truncatedStream 0 := by
  simp only [fetchHeader, hb, memRead_eos hl]

/-- Fourteen bytes or more without the magic in front (60_exceptions R211). -/
theorem fetchHeader_badMagic {d : Dec} {bytes : List Byte} {more : List InToken}
    (hb : d.stream = bytes.map .byte ++ more) (hl : headerBytes ≤ bytes.length) (hm : bytes.take 4 ≠ magic) :
    fetchHeader d = .error .formatError 0 := by
  have hdecode : decodeHeaderRecord (bytes.take headerBytes) = .error .badMagic := by
    refine decodeHeaderRecord_badMagic (by rw [List.length_take, Nat.min_eq_left hl]) ?_
    rwa [List.take_take]
  simp only [fetchHeader, hb, memRead_take hl, decode, hdecode, headerError]

/-- A fetch that finds an error makes DEC's step the raise of that error. -/
theorem decStep_error {s : State} {e : ErrorKind} {offset : Nat} (hbusy : s.dec.phase.takesStart = false)
    (hf : s.dec.fetch = .error e offset) : decStep s = some (.next { s with dec := s.dec.raise e offset }) := by
  simp only [decStep_busy hbusy, hf]

/-- Settles O30: the fetch of the header finds the error, and the step raises it. -/
theorem headerStepFaults : Obligations.HeaderStepFaults := by
  unfold Obligations.HeaderStepFaults
  intro s bytes more hr ht hp
  have hbusy : s.dec.phase.takesStart = false := by rw [hp]; rfl
  constructor
  · intro hl hb
    exact step_eq_of_decStep hr ht (decStep_error hbusy ((Dec.fetch_header hp).trans (fetchHeader_eos hb hl)))
  · intro hl hb hm
    exact step_eq_of_decStep hr ht
      (decStep_error hbusy ((Dec.fetch_header hp).trans (fetchHeader_badMagic hb hl.ge hm)))

/-- Settles O31: the fetch of the chunk finds the error, and the step raises it. -/
theorem chunkStepTruncated : Obligations.ChunkStepTruncated := by
  unfold Obligations.ChunkStepTruncated
  intro s bytes more hr ht hp hb hshort
  exact step_eq_of_decStep hr ht
    (decStep_error (by rw [hp]; rfl) ((Dec.fetch_body hp).trans (fetchChunk_eos hb hshort)))

/-! ### A decode ends (R158)

After its start DEC reads a fixed byte list with an `eos` behind it (`Dec.Reads`). Every step then raises or moves `ipos`
forward (`Dec.Advances`), and `ipos` stays within the list, so DEC runs out of steps; what it then reports is read off its
invariant. -/

/-- DEC in an operation on the byte list `bytes`, with no further command waiting: what stands on `byte_in` is what `ipos` has
not passed, and a pixel is on `pix_out` for each one counted. -/
structure Dec.Reads (bytes : List Byte) (d : Dec) : Prop where
  started : d.phase ≠ .idle
  cmd : d.cmd = 0
  pixels : d.pixOut.length = d.count
  within : d.ipos ≤ bytes.length
  stream : d.stream = (bytes.drop d.ipos).map .byte ++ [.eos]

/-- A step of DEC from `d` to `d'` while it reads `bytes`: it ends in FAULT or uses at least one byte. -/
def Dec.Advances (bytes : List Byte) (d d' : Dec) : Prop :=
  d'.Reads bytes ∧ (d'.phase = .fault ∨ d.ipos < d'.ipos)

section
variable {bytes : List Byte} {s : State} {d d' : Dec}

theorem Dec.Reads.advances_raise (h : d.Reads bytes) (e : ErrorKind) (offset : Nat) :
    d.Advances bytes (d.raise e offset) :=
  ⟨⟨nofun, h.cmd, h.pixels, h.within, h.stream⟩, .inl rfl⟩

/-- `len` bytes that are there leave the port and `ipos` passes them. -/
theorem Dec.Reads.stream_drop (h : d.Reads bytes) {len : Nat} (hlen : d.ipos + len ≤ bytes.length) :
    d.stream.drop len = (bytes.drop (d.ipos + len)).map .byte ++ [.eos] := by
  rw [h.stream, List.drop_append_of_le_length (by rw [List.length_map, List.length_drop]; omega), ← List.map_drop,
    List.drop_drop]

/-- The end of a chunk that has emitted `n` pixels and whose bytes are there (R143, R151). -/
theorem Dec.Reads.advances_chunkEnd (h : d.Reads bytes) {len n : Nat} (hend : d.ChunkEnd len d')
    (hframe : d.ChunkFrame d') (hpix : d'.pixOut.length = d.pixOut.length + n) (hcount : d'.count = d.count + n)
    (hpos : 0 < len) (hlen : d.ipos + len ≤ bytes.length) : d.Advances bytes d' := by
  refine ⟨⟨?_, ?_, ?_, ?_, ?_⟩, .inr ?_⟩
  · rw [hend.phase]
    split <;> nofun
  · rw [hframe.cmd, h.cmd]
  · rw [hpix, hcount, h.pixels]
  · rwa [hend.ipos]
  · rw [Dec.stream_drop hend.byteIn, hend.ipos, h.stream_drop hlen]
  · rw [hend.ipos]
    omega

/-- A chunk of one pixel whose bytes are there, in BODY with a pixel to go. -/
theorem chunkStep_onePixel_advances (h : s.dec.Reads bytes) (hp : s.dec.phase = .body)
    (hc : s.dec.count < s.dec.target) {len : Nat} (hpos : 0 < len) (hlen : s.dec.ipos + len ≤ bytes.length)
    (f : Dec → Color) :
    ∃ t, chunkStep len (fun d => d.emitPixel (f d) true) s = .next t ∧ s.dec.Advances bytes t.dec := by
  obtain ⟨t, ht, -, hpixel⟩ := chunkStep_onePixel hp hc len f
  have hpix : t.dec.pixOut.length = s.dec.pixOut.length + 1 := by rw [hpixel.pixOut, List.length_append]; rfl
  exact ⟨t, ht, h.advances_chunkEnd hpixel.ending hpixel.frame hpix hpixel.count hpos hlen⟩

/-- A RUN whose byte is there, in BODY with a pixel to go: it fits, or it raises (R146). -/
theorem exec_run_advances (h : s.dec.Reads bytes) (hp : s.dec.phase = .body) (hc : s.dec.count < s.dec.target) {n : Nat}
    (hwf : Instr.WellFormed (.run n)) (hlen : s.dec.ipos + 1 ≤ bytes.length) :
    ∃ t, exec (.run n) s = .next t ∧ s.dec.Advances bytes t.dec := by
  by_cases hfit : s.dec.count + n ≤ s.dec.target
  · obtain ⟨t, ht, -, hpix, -, -, hcount, hend, hframe⟩ := runRepeatsPrevious s n hwf hp hfit
    exact ⟨t, ht, h.advances_chunkEnd hend hframe (by simp [hpix]) hcount Nat.one_pos hlen⟩
  · obtain ⟨t, ht, -, hpix, hcount, hfault, -, -, -, -, hipos, hbyteIn, hframe⟩ :=
      runPastTargetOverruns s n hp hc (Nat.not_le.1 hfit)
    refine ⟨t, ht, ⟨?_, ?_, ?_, ?_, ?_⟩, .inl hfault⟩
    · rw [hfault]
      nofun
    · rw [hframe.cmd, h.cmd]
    · rw [hpix, hcount, List.length_append, List.length_replicate, h.pixels]
      omega
    · rw [hipos]
      exact h.within
    · rw [hipos, ← h.stream, Dec.stream, hbyteIn, Dec.stream]

/-- Any chunk whose bytes are there, in BODY with a pixel to go. -/
theorem exec_chunk_advances (h : s.dec.Reads bytes) (hp : s.dec.phase = .body) (hc : s.dec.count < s.dec.target)
    {i : Instr} (hi : i.region = .chunks) (hwf : i.WellFormed) (hlen : s.dec.ipos + i.length ≤ bytes.length) :
    ∃ t, exec i s = .next t ∧ s.dec.Advances bytes t.dec := by
  cases i with
  | rgba r g b a => exact chunkStep_onePixel_advances h hp hc (Nat.succ_pos _) hlen fun _ => ⟨r, g, b, a⟩
  | rgb r g b => exact chunkStep_onePixel_advances h hp hc (Nat.succ_pos _) hlen fun d => ⟨r, g, b, d.prev.a⟩
  | run n => exact exec_run_advances h hp hc hwf hlen
  | luma ddr dg ddb =>
    exact chunkStep_onePixel_advances h hp hc (Nat.succ_pos _) hlen fun d => moveColor d.prev (ddr + dg) dg (ddb + dg)
  | diff dr dg db => exact chunkStep_onePixel_advances h hp hc (Nat.succ_pos _) hlen fun d => moveColor d.prev dr dg db
  | index k => exact chunkStep_onePixel_advances h hp hc (Nat.succ_pos _) hlen fun d => d.cache.lookup k
  | header w hg ch cs => cases hi
  | endMarker => cases hi

/-- The chunk step: the bytes left are too few for a chunk and the `eos` raises, or they begin with a complete chunk. -/
theorem decStep_body_advances (h : s.dec.Reads bytes) (hp : s.dec.phase = .body) (hc : s.dec.count < s.dec.target) :
    ∃ t, decStep s = some (.next t) ∧ s.dec.Advances bytes t.dec := by
  by_cases hshort : ∀ op tl, bytes.drop s.dec.ipos = op :: tl → (bytes.drop s.dec.ipos).length < chunkLength op
  · have hf := (Dec.fetch_body hp).trans (fetchChunk_eos h.stream hshort)
    exact ⟨_, decStep_error (by rw [hp]; rfl) hf, h.advances_raise _ _⟩
  · push Not at hshort
    obtain ⟨op, tl, hleft, hlen⟩ := hshort
    obtain ⟨i, hd, hi⟩ := (everyOpcodeByteDecodes op tl).1 (by rwa [hleft] at hlen)
    obtain ⟨hwf, hregion, -⟩ := encodeOfDecodedChunk _ _ _ hd
    have hthere : s.dec.ipos + i.length ≤ bytes.length := by
      have := h.within
      rw [List.length_drop] at hlen
      omega
    obtain ⟨t, ht, hadv⟩ := exec_chunk_advances h hp hc hregion hwf hthere
    exact ⟨t, by rw [decStep_chunk hp (hleft ▸ h.stream) hd, ht], hadv⟩

/-- A header record whose 14 bytes are there is rejected or latched (R141). -/
theorem acceptHeader_advances (h : d.Reads bytes) (hpos : d.ipos = 0) (hl : headerBytes ≤ bytes.length) (cfg : Config)
    (w hg : Word32) (ch cs : Byte) : d.Advances bytes (d.acceptHeader cfg w hg ch cs) := by
  rcases d.acceptHeader_cases cfg w hg ch cs with ⟨e, he⟩ | ⟨-, -, he⟩
  · rw [he]
    exact h.advances_raise e 0
  · rw [he]
    refine ⟨⟨?_, h.cmd, h.pixels, hl, ?_⟩, .inr (hpos ▸ Nat.succ_pos _)⟩
    · rcases Dec.latchHeader_phase_cases w hg ch cs d with ⟨hph, -⟩ | ⟨hph, -⟩ <;> rw [hph] <;> nofun
    · have hs := h.stream_drop (len := headerBytes) (by rwa [hpos, Nat.zero_add])
      rwa [hpos, Nat.zero_add, ← Dec.stream_drop (d' := d.latchHeader w hg ch cs) rfl] at hs

/-- The header step: too few bytes, another magic, or a header record (60_exceptions R219). -/
theorem decStep_header_advances (h : s.dec.Reads bytes) (hp : s.dec.phase = .header) (hpos : s.dec.ipos = 0) :
    ∃ t, decStep s = some (.next t) ∧ s.dec.Advances bytes t.dec := by
  have hbusy : s.dec.phase.takesStart = false := by rw [hp]; rfl
  have hb : s.dec.stream = bytes.map .byte ++ [.eos] := by rw [h.stream, hpos, List.drop_zero]
  by_cases hl : headerBytes ≤ bytes.length
  · by_cases hm : bytes.take 4 = magic
    · obtain ⟨w, hg, ch, cs, rest, hd⟩ := decodeHeaderRecord_magic hl hm
      exact ⟨_, by rw [decStep_header hp hb hd, exec_header hp], acceptHeader_advances h hpos hl s.cfg w hg ch cs⟩
    · have hf := (Dec.fetch_header hp).trans (fetchHeader_badMagic hb hl hm)
      exact ⟨_, decStep_error hbusy hf, h.advances_raise _ _⟩
  · have hf := (Dec.fetch_header hp).trans (fetchHeader_eos hb (Nat.not_le.1 hl))
    exact ⟨_, decStep_error hbusy hf, h.advances_raise _ _⟩

/-- A DEC that reads a byte list with an `eos` behind it never waits: in HEADER and BODY its step is enabled. -/
theorem decStep_advances (hinv : s.dec.Inv s.cfg) (h : s.dec.Reads bytes) (hbusy : s.dec.phase.takesStart = false) :
    ∃ t, decStep s = some (.next t) ∧ s.dec.Advances bytes t.dec := by
  cases hp : s.dec.phase with
  | header =>
    rw [Dec.Inv, hp] at hinv
    exact decStep_header_advances h hp hinv.1
  | body => exact decStep_body_advances h hp (Dec.inv_of_body hp hinv).2
  | idle => exact absurd hp h.started
  | done => cases hbusy.symm.trans (congrArg _ hp)
  | fault => cases hbusy.symm.trans (congrArg _ hp)

/-- One step more than there are bytes left ends the operation. -/
theorem runAgent_dec_ends {n : Nat} (hinv : s.dec.Inv s.cfg) (h : s.dec.Reads bytes)
    (hn : s.dec.phase.takesStart = true ∨ bytes.length < s.dec.ipos + n) :
    (runAgent .dec n s).dec.Inv s.cfg ∧ (runAgent .dec n s).dec.Reads bytes
      ∧ (runAgent .dec n s).dec.phase.takesStart = true := by
  induction n generalizing s with
  | zero => exact ⟨hinv, h, hn.resolve_right (Nat.not_lt.2 h.within)⟩
  | succ n ih =>
    cases hp : s.dec.phase.takesStart with
    | true =>
      rw [runAgent_stop (a := .dec) (decStep_idle hp h.cmd)]
      exact ⟨hinv, h, hp⟩
    | false =>
      obtain ⟨t, ht, hreads, hadv⟩ := decStep_advances hinv h hp
      have hcfg : t.cfg = s.cfg := Agent.step_cfg (a := .dec) ht
      have hfuel : t.dec.phase.takesStart = true ∨ bytes.length < t.dec.ipos + n := by
        rcases hadv with hfault | hlt
        · exact .inl (by rw [hfault]; rfl)
        · rcases hn with he | hlen
          · cases he.symm.trans hp
          · exact .inr (by omega)
      rw [runAgent_next (a := .dec) ht, ← hcfg]
      exact ih (hcfg ▸ Dec.inv_decStep hinv ht) hreads hfuel

theorem Dec.result_done (h : d.phase = .done) :
    d.result = some (.ok d.width d.height d.channels d.colorspace d.pixOut d.ipos) := by
  rw [Dec.result, h]

theorem Dec.result_fault (h : d.phase = .fault) : d.result = some (.error d.fault d.pixOut) := by
  rw [Dec.result, h]

end

/-- A decode ends in DONE or FAULT, within the invariant and its byte list (R158). -/
theorem decodeStream_ends (cfg : Config) (bytes : List Byte) :
    ∃ d : Dec, decodeStream cfg bytes = d.result ∧ d.Inv cfg ∧ d.Reads bytes ∧ d.phase.takesStart = true := by
  have hstart : Agent.step .dec (State.launchDecode cfg bytes) = some (.next _) :=
    decStep_start rfl Nat.one_pos (leftoverFirst_zero _)
  have hreads : (State.launchDecode cfg bytes).dec.start.Reads bytes :=
    ⟨nofun, rfl, rfl, Nat.zero_le _, launchDecode_stream cfg bytes⟩
  refine ⟨_, congrArg (fun s => s.dec.result) (runAgent_next hstart _), ?_⟩
  refine runAgent_dec_ends (s := { State.launchDecode cfg bytes with dec := _ }) ⟨rfl, rfl, rfl, rfl⟩ hreads (.inr ?_)
  dsimp only
  omega

/-- Settles O57: DEC ends in DONE, whose invariant counts the pixels, or in FAULT, whose invariant gives the record. -/
theorem decodeAlwaysEnds : Obligations.DecodeAlwaysEnds := by
  unfold Obligations.DecodeAlwaysEnds
  intro cfg bytes
  obtain ⟨d, hresult, hinv, hreads, hended⟩ := decodeStream_ends cfg bytes
  rw [hresult]
  rcases DecPhase.takesStart_iff.1 hended with hp | hp | hp
  · exact absurd hp hreads.started
  · rw [Dec.Inv, hp] at hinv
    obtain ⟨hL, hcount⟩ := hinv
    have hsize : d.target = d.width.toNat * d.height.toNat := hL.target
    exact .inl ⟨_, _, _, _, _, _, Dec.result_done hp, hreads.pixels.trans (hcount.trans hsize),
      hreads.within, hsize ▸ hL.limit⟩
  · rw [Dec.Inv, hp] at hinv
    obtain ⟨⟨e, hcode⟩, hoffset, hpixels⟩ := hinv
    have hrecord : d.fault = ⟨e.code, d.ipos, d.pixOut.length⟩ := by
      rw [hreads.pixels, ← hcode, ← hoffset, ← hpixels]
    exact .inr ⟨e, d.ipos, d.pixOut, by rw [Dec.result_fault hp, hrecord], hreads.within⟩

end Sys2Proof.Machine
end

section
/-! PROOFS of the family of 43_chunk_encoder: which bytes a pixel step writes (R172 to R186), the bytes of a whole encode
(R188, R190), and the round trip through DEC (R189). -/

namespace Sys2Proof.Machine

/-! ### The chosen chunk and its bytes (R175 to R180) -/

section
variable {m : Cache} {prev c : Color}

theorem chooseChunk_hit (h : m.lookup (colorHash c) = c) : chooseChunk m prev c = .index (colorHash c) := if_pos h

theorem chooseChunk_miss (h : m.lookup (colorHash c) ≠ c) : chooseChunk m prev c = literalChunk prev c := if_neg h

theorem cacheAfterChange_hit (h : m.lookup (colorHash c) = c) : cacheAfterChange m c = m := if_pos h

theorem cacheAfterChange_miss (h : m.lookup (colorHash c) ≠ c) : cacheAfterChange m c = m.store c := if_neg h

theorem literalChunk_rgba (ha : c.a ≠ prev.a) : literalChunk prev c = .rgba c.r c.g c.b c.a := if_neg ha

variable {dr dg db : Int} (ha : c.a = prev.a) (hr : dr = (c.r.toNat : Int) - prev.r.toNat)
  (hg : dg = (c.g.toNat : Int) - prev.g.toNat) (hb : db = (c.b.toNat : Int) - prev.b.toNat)
include ha hr hg hb

theorem literalChunk_diff (hd : FitsDiff dr dg db) : literalChunk prev c = .diff dr dg db := by
  simp only [literalChunk, channelDelta, ← hr, ← hg, ← hb, if_pos ha, if_pos hd]

theorem literalChunk_luma (hd : ¬ FitsDiff dr dg db) (hl : FitsLuma (dr - dg) dg (db - dg)) :
    literalChunk prev c = .luma (dr - dg) dg (db - dg) := by
  simp only [literalChunk, channelDelta, ← hr, ← hg, ← hb, if_pos ha, if_neg hd, if_pos hl]

theorem literalChunk_rgb (hd : ¬ FitsDiff dr dg db) (hl : ¬ FitsLuma (dr - dg) dg (db - dg)) :
    literalChunk prev c = .rgb c.r c.g c.b := by
  simp only [literalChunk, channelDelta, ← hr, ← hg, ← hb, if_pos ha, if_neg hd, if_neg hl]

end

/-- The stored field of a value read back is its biased value (30_encoding R100). -/
@[simp] theorem toNat_unbias_add (stored : Nat) (bias : Int) : (unbias stored bias + bias).toNat = stored := by
  simp [unbias]

theorem encode_index (i : CacheIndex) : encode (.index i) = [BitVec.ofNat 8 i.toNat] := by
  rw [encode, BitVec.ofNat_toNat]

/-- The byte of DIFF as a sum (R177). -/
theorem encode_diff {dr dg db : Int} (h : FitsDiff dr dg db) :
    encode (.diff dr dg db)
      = [BitVec.ofNat 8 (0x40 + (dr + 2).toNat * 16 + (dg + 2).toNat * 4 + (db + 2).toNat)] := by
  obtain ⟨⟨hr0, hr1⟩, ⟨hg0, hg1⟩, hb0, hb1⟩ := h
  obtain ⟨r, hr, rfl⟩ := exists_eq_unbias (n := 4) hr0 (by omega)
  obtain ⟨g, hg, rfl⟩ := exists_eq_unbias (n := 4) hg0 (by omega)
  obtain ⟨b, hb, rfl⟩ := exists_eq_unbias (n := 4) hb0 (by omega)
  simp only [encode_diff_unbias hr hg hb, toNat_unbias_add, Nat.mul_comm]

/-- The two bytes of LUMA as sums (R178). -/
theorem encode_luma {ddr dg ddb : Int} (h : FitsLuma ddr dg ddb) :
    encode (.luma ddr dg ddb)
      = [BitVec.ofNat 8 (0x80 + (dg + 32).toNat), BitVec.ofNat 8 ((ddr + 8).toNat * 16 + (ddb + 8).toNat)] := by
  obtain ⟨⟨hg0, hg1⟩, ⟨hr0, hr1⟩, hb0, hb1⟩ := h
  obtain ⟨r, hr, rfl⟩ := exists_eq_unbias (n := 16) hr0 (by omega)
  obtain ⟨g, hg, rfl⟩ := exists_eq_unbias (n := 64) hg0 (by omega)
  obtain ⟨b, hb, rfl⟩ := exists_eq_unbias (n := 16) hb0 (by omega)
  simp only [encode_luma_unbias hg hb, toNat_unbias_add, Nat.mul_comm]

/-! ### One pixel step (R172 to R180) -/

section
variable {s : State} {p : Marked Color} {rest : List (Marked Color)}

/-- With a pixel waiting for ENC the machine takes the pixel step. -/
theorem step_pixel (h : s.EncReady p rest) :
    step s = .next { s with enc := Enc.pixelStep p.token { s.enc with pixIn := rest } } :=
  step_eq_of_encStep h.rst h.turn (encStep_busy h.phase h.count.ne h.pixIn)

/-- What the pixel step does to ENC, as an effect of the machine's step. -/
theorem step_pixel_effect (h : s.EncReady p rest) {c : Color} {chunks : List Byte} {run : BitVec 6} {cache : Cache}
    (he : s.enc.PixelEffect c chunks run cache rest (Enc.pixelStep p.token { s.enc with pixIn := rest })) :
    ∃ t, step s = .next t ∧ s.OnlyEnc t ∧ s.enc.PixelEffect c chunks run cache rest t.enc :=
  ⟨_, step_pixel h, ⟨rfl, rfl, rfl, rfl, rfl⟩, he⟩

/-- A pixel other than `prev`: the pending run and the chosen chunk, whatever the run (R174). -/
theorem step_changed_pixel (h : s.EncReady p rest) {c : Color} (hc : c = forceAlpha s.enc.channels p.token)
    (hne : c ≠ s.enc.prev) :
    ∃ t, step s = .next t ∧ s.OnlyEnc t
      ∧ s.enc.PixelEffect c (s.enc.pendingRun ++ encode (chooseChunk s.enc.cache s.enc.prev c)) 0
          (cacheAfterChange s.enc.cache c) rest t.enc := by
  refine step_pixel_effect h (Enc.pixelStep_effect h.phase hc ?_)
  rw [if_neg hne, Enc.encodeChange_eq]
  rfl

/-- A pixel other than `prev` that misses the cache (R176): its literal chunk is written and it is stored. -/
theorem step_missed_pixel (h : s.EncReady p rest) {c : Color} (hc : c = forceAlpha s.enc.channels p.token)
    (hne : c ≠ s.enc.prev) (hmiss : s.enc.cache.lookup (colorHash c) ≠ c) :
    ∃ t, step s = .next t ∧ s.OnlyEnc t
      ∧ s.enc.PixelEffect c (s.enc.pendingRun ++ encode (literalChunk s.enc.prev c)) 0 (s.enc.cache.store c) rest
          t.enc := by
  simpa only [chooseChunk_miss hmiss, cacheAfterChange_miss hmiss] using step_changed_pixel h hc hne

end

/-- Settles O40: of the three things a pixel step can do, only the lengthening of the run is left. -/
theorem equalPixelLengthensRun : Obligations.EqualPixelLengthensRun := by
  unfold Obligations.EqualPixelLengthensRun
  intro s p rest h heq hrun hmore
  rcases Enc.pixelStep_cases (p := p.token) (rest := rest) h.phase (by omega) with
    ⟨-, -, -, he⟩ | ⟨-, hflush, -⟩ | ⟨hne, -⟩
  · exact step_pixel_effect h (heq ▸ he)
  · omega
  · exact absurd heq hne

/-- Settles O41: of the three things a pixel step can do, only the flush of the run is left. -/
theorem fullOrLastRunIsFlushed : Obligations.FullOrLastRunIsFlushed := by
  unfold Obligations.FullOrLastRunIsFlushed
  intro s p rest h heq hrun hflush
  rcases Enc.pixelStep_cases (p := p.token) (rest := rest) h.phase hrun with
    ⟨-, hlt, hmore, -⟩ | ⟨-, -, he⟩ | ⟨hne, -⟩
  · omega
  · exact step_pixel_effect h (heq ▸ he)
  · exact absurd heq hne

/-- Settles O42: the chunk of a hit is INDEX, and a hit leaves the cache. -/
theorem hitIsWrittenAsIndex : Obligations.HitIsWrittenAsIndex := by
  unfold Obligations.HitIsWrittenAsIndex
  intro s p c rest h hc hne hhit
  simpa only [chooseChunk_hit hhit, cacheAfterChange_hit hhit, encode_index] using step_changed_pixel h hc hne

/-- Settles O43: the literal chunk of small deltas is DIFF. -/
theorem smallDeltaIsWrittenAsDiff : Obligations.SmallDeltaIsWrittenAsDiff := by
  unfold Obligations.SmallDeltaIsWrittenAsDiff
  intro s p c rest dr dg db h hc hne hmiss ha hr hg hb hd
  rw [← encode_diff hd, ← literalChunk_diff ha hr hg hb hd]
  exact step_missed_pixel h hc hne hmiss

/-- Settles O44: the literal chunk of deltas that fit LUMA only is LUMA. -/
theorem mediumDeltaIsWrittenAsLuma : Obligations.MediumDeltaIsWrittenAsLuma := by
  unfold Obligations.MediumDeltaIsWrittenAsLuma
  intro s p c rest dr dg db h hc hne hmiss ha hr hg hb hd hl
  rw [← encode_luma hl, ← literalChunk_luma ha hr hg hb hd hl]
  exact step_missed_pixel h hc hne hmiss

/-- Settles O45: the literal chunk of another alpha is RGBA, and of equal alpha RGB where neither delta chunk fits. -/
theorem otherPixelsAreWrittenRaw : Obligations.OtherPixelsAreWrittenRaw := by
  unfold Obligations.OtherPixelsAreWrittenRaw
  intro s p c rest dr dg db h hc hne hmiss hr hg hb hfits
  have hstep := step_missed_pixel h hc hne hmiss
  by_cases ha : c.a = s.enc.prev.a
  · obtain ⟨hd, hl⟩ := hfits ha
    rw [literalChunk_rgb ha hr hg hb hd hl] at hstep
    rwa [if_pos ha]
  · rw [literalChunk_rgba ha] at hstep
    rwa [if_neg ha]

/-! ### Opaque images (R184) -/

/-- RGBA is written for a change of alpha only (R180). -/
theorem chooseChunk_ne_rgba {m : Cache} {prev c : Color} (ha : c.a = prev.a) (r g b a : Byte) :
    chooseChunk m prev c ≠ .rgba r g b a := by
  unfold chooseChunk literalChunk
  rw [if_pos ha]
  dsimp only
  split_ifs <;> exact Instr.noConfusion

/-- An INDEX names a slot that holds the pixel (R175). -/
theorem lookup_of_chooseChunk_index {m : Cache} {prev c : Color} {k : CacheIndex}
    (h : chooseChunk m prev c = .index k) : m.lookup k = c := by
  by_cases hhit : m.lookup (colorHash c) = c
  · rw [chooseChunk_hit hhit] at h
    cases h
    exact hhit
  · rw [chooseChunk_miss hhit] at h
    unfold literalChunk at h
    dsimp only at h
    split_ifs at h

/-- Settles O46: the forced pixel has the alpha of `prev`, and an INDEX names a slot that holds that pixel. -/
theorem threeChannelsStayOpaque : Obligations.ThreeChannelsStayOpaque := by
  unfold Obligations.ThreeChannelsStayOpaque
  intro m prev p hprev
  refine ⟨forceAlpha_opaque p, chooseChunk_ne_rgba (by rw [forceAlpha_opaque, hprev]), fun k hk => ?_⟩
  rw [lookup_of_chooseChunk_index hk, forceAlpha_opaque]

/-! ### END where it is not due (log 10) -/

/-- Settles O27: the guard of END fails. -/
theorem endMarkerElsewhereDoesNothing : Obligations.EndMarkerElsewhereDoesNothing := by
  unfold Obligations.EndMarkerElsewhereDoesNothing
  intro s h
  rw [exec, execEndMarker, if_neg (not_and_or.2 h)]

/-! ### The chunks of an image

ENC spreads the chunks of an image over its pixel steps. Here they are one list, a function of the pixels (their alpha
already forced) and of what ENC holds between two steps: the pending run, `prev` and the cache. -/

/-- The chunk of a pending run (R174). -/
def runChunk (run : Nat) : List Instr := if run = 0 then [] else [.run run]

/-- The chunks ENC has still to write (R172 to R181). The run pending after the last pixel is flushed. -/
def imageChunks (run : Nat) (prev : Color) (m : Cache) : List Color → List Instr
  | [] => runChunk run
  | c :: pixels =>
    if c = prev then
      if run = 61 then .run 62 :: imageChunks 0 prev m pixels else imageChunks (run + 1) prev m pixels
    else runChunk run ++ chooseChunk m prev c :: imageChunks 0 c (cacheAfterChange m c) pixels

/-- The bytes of a list of items (30_encoding R112). -/
def encodeList (items : List Instr) : List Byte := items.flatMap encode

@[simp] theorem encodeList_nil : encodeList [] = [] := rfl

@[simp] theorem encodeList_cons (i : Instr) (items : List Instr) : encodeList (i :: items) = encode i ++ encodeList items :=
  List.flatMap_cons

@[simp] theorem encodeList_append (xs ys : List Instr) : encodeList (xs ++ ys) = encodeList xs ++ encodeList ys :=
  List.flatMap_append

section
variable {run : Nat} {prev c : Color} {m : Cache} {pixels : List Color}

theorem imageChunks_fill : imageChunks 61 prev m (prev :: pixels) = .run 62 :: imageChunks 0 prev m pixels := by
  rw [imageChunks, if_pos rfl, if_pos rfl]

theorem imageChunks_equal (h : run ≠ 61) :
    imageChunks run prev m (prev :: pixels) = imageChunks (run + 1) prev m pixels := by
  rw [imageChunks, if_pos rfl, if_neg h]

theorem imageChunks_change (h : c ≠ prev) :
    imageChunks run prev m (c :: pixels)
      = runChunk run ++ chooseChunk m prev c :: imageChunks 0 c (cacheAfterChange m c) pixels := by
  rw [imageChunks, if_neg h]

/-- The chunks of the last pixel, equal to `prev`, are the RUN it completes (R173). -/
theorem imageChunks_last_equal : imageChunks run prev m [prev] = [.run (run + 1)] := by
  by_cases hfull : run = 61
  · rw [hfull, imageChunks_fill]
    rfl
  · rw [imageChunks_equal hfull]
    rfl

end

theorem encodeList_runChunk (x : Enc) : encodeList (runChunk x.run.toNat) = x.pendingRun := by
  by_cases h : x.run.toNat = 0
  · rw [runChunk, if_pos h, Enc.pendingRun, if_pos h, encodeList_nil]
  · rw [runChunk, if_neg h, pendingRun_eq x h, encodeList_cons, encodeList_nil, List.append_nil]

theorem encodeList_runChunk_length (run : Nat) : (encodeList (runChunk run)).length = if run = 0 then 0 else 1 := by
  unfold runChunk
  split <;> rfl

/-- The chunks of an image have at most five bytes a pixel, and a pending run one more (R190). -/
theorem encodeList_imageChunks_length (run : Nat) (prev : Color) (m : Cache) (pixels : List Color) :
    (encodeList (imageChunks run prev m pixels)).length ≤ (if run = 0 then 0 else 1) + 5 * pixels.length := by
  induction pixels generalizing run prev m with
  | nil => exact (encodeList_runChunk_length run).le
  | cons c pixels ih =>
    have ih0 (prev' : Color) (m' : Cache) : (encodeList (imageChunks 0 prev' m' pixels)).length ≤ 5 * pixels.length :=
      (ih 0 prev' m').trans_eq (Nat.zero_add _)
    rw [List.length_cons]
    by_cases hc : c = prev
    · subst hc
      by_cases hfull : run = 61
      · have := ih0 c m
        rw [hfull, imageChunks_fill, encodeList_cons, List.length_append, encode_run_length]
        omega
      · have := ih (run + 1) c m
        rw [if_neg (Nat.succ_ne_zero _)] at this
        rw [imageChunks_equal hfull]
        omega
    · have := ih0 c (cacheAfterChange m c)
      have := chooseChunk_length m prev c
      rw [imageChunks_change hc, encodeList_append, encodeList_cons, List.length_append, List.length_append,
        encodeList_runChunk_length]
      omega

/-! ### An encode runs to its end (R188) -/

/-- The bytes ENC has still to write before the end marker, with these pixels on its port and no others to come. -/
def Enc.remaining (x : Enc) (waiting : List (Marked Color)) : List Byte :=
  encodeList (imageChunks x.run.toNat x.prev x.cache (waiting.map fun p => forceAlpha x.channels p.token))

theorem Enc.PixelEffect.remaining {c : Color} {chunks : List Byte} {run : BitVec 6} {cache : Cache}
    {rest : List (Marked Color)} {x x' : Enc} (h : x.PixelEffect c chunks run cache rest x') :
    x'.remaining rest
      = encodeList (imageChunks run.toNat c cache (rest.map fun p => forceAlpha x.channels p.token)) := by
  rw [Enc.remaining, h.run, h.prev, Cache.ext_lookup h.cache, h.channels]

/-- A pixel step writes the first of the remaining bytes; at the last pixel it writes them all (R172 to R182). -/
theorem Enc.pixelStep_remaining {x : Enc} {p : Marked Color} {rest : List (Marked Color)} (hp : x.phase = .body)
    (hr : x.run.toNat ≤ 61) (hlast : x.count + 1 = x.target ↔ rest = []) :
    ∃ c chunks run cache,
      x.PixelEffect c chunks run cache rest (Enc.pixelStep p.token { x with pixIn := rest }) ∧ run.toNat ≤ 61
        ∧ x.remaining (p :: rest) = chunks ++ (Enc.pixelStep p.token { x with pixIn := rest }).remaining rest
        ∧ (rest = [] → run = 0) := by
  rcases Enc.pixelStep_cases (p := p.token) (rest := rest) hp hr with
    ⟨hc, hlt, hmore, he⟩ | ⟨hc, hflush, he⟩ | ⟨hc, he⟩
  · have hsucc : (x.run + 1).toNat = x.run.toNat + 1 := by
      rw [BitVec.toNat_add]
      exact Nat.mod_eq_of_lt (by simp; omega)
    refine ⟨_, _, _, _, he, by omega, ?_, fun h => absurd (hlast.2 h) hmore⟩
    rw [he.remaining, Enc.remaining, List.map_cons, hc, imageChunks_equal hlt.ne, hsucc, List.nil_append]
  · refine ⟨_, _, _, _, he, by decide, ?_, fun _ => rfl⟩
    rw [he.remaining, Enc.remaining, List.map_cons, hc, ← encode_run_succ (by omega)]
    by_cases hfull : x.run.toNat = 61
    · rw [hfull, imageChunks_fill, encodeList_cons]
      rfl
    · rw [hlast.1 (hflush.resolve_left hfull), List.map_nil, imageChunks_last_equal]
      rfl
  · refine ⟨_, _, _, _, he, by decide, ?_, fun _ => rfl⟩
    rw [he.remaining, Enc.remaining, List.map_cons, imageChunks_change hc, encodeList_append, encodeList_cons,
      encodeList_runChunk, List.append_assoc]
    rfl

/-- ENC in BODY with exactly the pixels it needs on its port ends in one step a pixel (R188; 70_reset R245). -/
theorem runAgent_enc_image {s : State} {p : Marked Color} {rest : List (Marked Color)} (hp : s.enc.phase = .body)
    (hcmd : s.enc.cmd = []) (hr : s.enc.run.toNat ≤ 61) (hi : s.enc.pixIn = p :: rest)
    (hc : s.enc.count + (p :: rest).length = s.enc.target) :
    (runAgent .enc (p :: rest).length s).enc.result
      = some (.ok (s.enc.byteOut ++ (s.enc.remaining (p :: rest) ++ endMarkerList))) := by
  induction rest generalizing s p with
  | nil =>
    have hend : s.enc.count + 1 = s.enc.target := hc
    obtain ⟨c, chunks, run, cache, he, -, hbytes, hrun⟩ :=
      Enc.pixelStep_remaining (p := p) (rest := []) hp hr (iff_of_true hend rfl)
    have hnone : (Enc.pixelStep p.token { s.enc with pixIn := [] }).remaining [] = [] := by
      rw [he.remaining, hrun rfl]
      rfl
    have hdone := he.phase
    have hout := he.byteOut
    rw [if_pos hend] at hdone hout
    rw [List.length_singleton, runAgent_next (a := .enc) (encStep_busy hp (by omega) hi),
      runAgent_enc_done hdone (he.cmd.trans hcmd), hbytes, hnone, List.append_nil, ← List.append_assoc]
    exact congrArg (some ∘ EncodeResult.ok) hout
  | cons q rest ih =>
    have hlen : s.enc.count + 1 + (q :: rest).length = s.enc.target := by
      rw [← hc]
      simp only [List.length_cons]
      omega
    have hmore : s.enc.count + 1 ≠ s.enc.target := by
      rw [← hlen, List.length_cons]
      omega
    obtain ⟨c, chunks, run, cache, he, hrun, hbytes, -⟩ :=
      Enc.pixelStep_remaining (p := p) (rest := q :: rest) hp hr (iff_of_false hmore nofun)
    have hbody := he.phase
    have hout := he.byteOut
    rw [if_neg hmore] at hbody hout
    rw [List.length_cons, runAgent_next (a := .enc) (encStep_busy hp (by omega) hi),
      ih hbody (he.cmd.trans hcmd) (he.run ▸ hrun) he.pixIn (by rw [he.count, he.target, hlen]), hbytes]
    simp only [hout, List.append_nil, List.append_assoc]

/-- ENC with the pixels of its first image on its port (70_reset R242). -/
def Enc.loaded (pixels : List Color) : Enc := { Enc.reset with pixIn := pixels.map (⟨·, 0⟩) }

section
variable {cfg : Config} {w h : Word32} {ch : Byte}

/-- The first step of an encode is the start step (R171). -/
theorem encodeImage_start (cfg : Config) (w h : Word32) (ch cs : Byte) (pixels : List Color) :
    ∃ s, s.enc = Enc.start cfg ⟨w, h, ch, cs⟩ (Enc.loaded pixels)
      ∧ encodeImage cfg w h ch cs pixels = (runAgent .enc pixels.length s).enc.result := by
  have hdrained : (State.launchEncode cfg ⟨w, h, ch, cs⟩ pixels).enc.undrained = false := leftoverFirst_zero _
  exact ⟨_, rfl, congrArg (fun s => s.enc.result) (runAgent_next (a := .enc) (encStep_start rfl rfl hdrained) _)⟩

/-- An encode that is refused at its start (R171; 60_exceptions R212, R213, R219). -/
theorem encodeImage_rejected (hbad : ¬ LegalChannels ch ∨ cfg.maxPixels < pixelCount w h) (cs : Byte)
    (pixels : List Color) :
    encodeImage cfg w h ch cs pixels
      = some (.error (if ¬ LegalChannels ch then ErrorKind.unsupportedChannel else .dimensionLimit).code) := by
  obtain ⟨s, hs, hrun⟩ := encodeImage_start cfg w h ch cs pixels
  rw [Enc.start_rejected _ hbad] at hs
  rw [hrun, runAgent_stop (a := .enc) (encStep_idle (by rw [hs]; rfl) (by rw [hs]; rfl)), hs]
  rfl

/-- An accepted encode writes the header, the chunks of its pixels and the end marker (R171 to R188). -/
theorem encodeImage_accepted (hch : LegalChannels ch) (hm : pixelCount w h ≤ cfg.maxPixels) (cs : Byte)
    {pixels : List Color} (hlen : pixels.length = pixelCount w h) :
    encodeImage cfg w h ch cs pixels
      = some (.ok (encodeHeader w h ch cs
          ++ (encodeList (imageChunks 0 initPrev Cache.clear (pixels.map (forceAlpha ch))) ++ endMarkerList))) := by
  obtain ⟨s, hs, hrun⟩ := encodeImage_start cfg w h ch cs pixels
  rw [Enc.start_accepted _ hch hm] at hs
  cases pixels with
  | nil =>
    have hempty : pixelCount w h = 0 := hlen.symm
    rw [if_pos hempty] at hs
    rw [hrun, runAgent_enc_done (by rw [hs]; rfl) (by rw [hs]; rfl), hs]
    rfl
  | cons p pixels =>
    rw [if_neg (hlen ▸ Nat.succ_ne_zero _)] at hs
    have himage := runAgent_enc_image (s := s) (p := ⟨p, 0⟩) (rest := pixels.map (⟨·, 0⟩)) (by rw [hs])
      (by rw [hs]; rfl) (by rw [hs]; exact Nat.zero_le _) (by rw [hs]; rfl)
      (by rw [hs, List.length_cons, List.length_map]; exact (Nat.zero_add _).trans hlen)
    rw [List.length_cons, List.length_map] at himage
    rw [hrun, List.length_cons, himage, hs]
    simp [Enc.remaining, Enc.loaded, encode, Enc.reset, Function.comp_def]

end

/-- Settles O58: what each verdict of the start step leads to; an accepted encode has 14 bytes of header, at most five for
each pixel, and 8 of end marker. -/
theorem encodeAlwaysEnds : Obligations.EncodeAlwaysEnds := by
  unfold Obligations.EncodeAlwaysEnds
  intro cfg w h ch cs pixels hlen
  refine ⟨fun hch => ?_, fun hch hm => ?_, fun hch hm => ⟨_, encodeImage_accepted hch hm cs hlen, ?_⟩⟩
  · rw [encodeImage_rejected (.inl hch), if_pos hch]
    rfl
  · rw [encodeImage_rejected (.inr hm), if_neg (not_not.2 hch)]
    rfl
  · have hbound := encodeList_imageChunks_length 0 initPrev Cache.clear (pixels.map (forceAlpha ch))
    rw [if_pos rfl, List.length_map, hlen] at hbound
    have hheader : (encodeHeader w h ch cs).length = 14 := rfl
    have hmarker : endMarkerList.length = 8 := rfl
    rw [List.length_append, List.length_append, hheader, hmarker]
    omega

/-! ### DEC reads the chunks of an image (R189) -/

/-- From `prev` and a cache the chunks give these pixels, when each is a RUN or the chunk ENC chooses for its pixel; a chosen
chunk leaves its pixel as `prev`, and in the cache (41_color_cache R136, R137). -/
inductive Yields : Color → Cache → List Instr → List Color → Prop
  | nil {prev : Color} {m : Cache} : Yields prev m [] []
  | run {prev : Color} {m : Cache} {chunks : List Instr} {pixels : List Color} {n : Nat}
      (hwf : Instr.WellFormed (.run n)) (h : Yields prev m chunks pixels) :
      Yields prev m (.run n :: chunks) (List.replicate n prev ++ pixels)
  | change {prev : Color} {m : Cache} {chunks : List Instr} {pixels : List Color} (c : Color)
      (h : Yields c (cacheAfterChange m c) chunks pixels) :
      Yields prev m (chooseChunk m prev c :: chunks) (c :: pixels)

theorem Yields.runChunk {prev : Color} {m : Cache} {chunks : List Instr} {pixels : List Color} {run : Nat}
    (hr : run ≤ 62) (h : Yields prev m chunks pixels) :
    Yields prev m (runChunk run ++ chunks) (List.replicate run prev ++ pixels) := by
  by_cases h0 : run = 0
  · rwa [h0]
  · rw [Machine.runChunk, if_neg h0]
    exact .run ⟨Nat.pos_of_ne_zero h0, hr⟩ h

/-- The chunks of an image give its pixels, behind those of the pending run. -/
theorem imageChunks_yields {run : Nat} (hr : run ≤ 61) (prev : Color) (m : Cache) (pixels : List Color) :
    Yields prev m (imageChunks run prev m pixels) (List.replicate run prev ++ pixels) := by
  induction pixels generalizing run prev m with
  | nil => simpa only [imageChunks, List.append_nil] using Yields.nil.runChunk (run := run) (by omega)
  | cons c pixels ih =>
    by_cases hc : c = prev
    · subst hc
      have hsucc : List.replicate run c ++ c :: pixels = List.replicate (run + 1) c ++ pixels := by
        rw [List.replicate_succ', List.append_assoc, List.singleton_append]
      rw [hsucc]
      by_cases hfull : run = 61
      · rw [hfull, imageChunks_fill]
        exact .run (by decide) (ih (run := 0) (Nat.zero_le _) c m)
      · rw [imageChunks_equal hfull]
        exact ih (by omega) c m
    · rw [imageChunks_change hc]
      exact .runChunk (by omega) (.change c (ih (run := 0) (Nat.zero_le _) c _))

theorem encode_length (i : Instr) : (encode i).length = i.length := by
  cases i <;> rfl

/-- A list of items has at least as many bytes as items. -/
theorem length_le_encodeList (items : List Instr) : items.length ≤ (encodeList items).length := by
  induction items with
  | nil => exact le_refl _
  | cons i items ih =>
    have hpos : 0 < i.length := by cases i <;> exact Nat.succ_pos _
    rw [encodeList_cons, List.length_append, encode_length, List.length_cons]
    omega

/-- DEC past its header, with the chunks of exactly the pixels it needs first on its port. -/
structure Dec.Awaits (chunks : List Instr) (pixels : List Color) (d : Dec) : Prop where
  cmd : d.cmd = 0
  stream : ∃ more, d.stream = (encodeList chunks).map .byte ++ more
  count : d.count + pixels.length = d.target
  phase : d.phase = if d.count = d.target then .done else .body

/-- What DEC reports when `pixels` and `len` bytes more end its operation. -/
def Dec.resultAfter (pixels : List Color) (len : Nat) (d : Dec) : DecodeResult :=
  .ok d.width d.height d.channels d.colorspace (d.pixOut ++ pixels) (d.ipos + len)

section
variable {i : Instr} {chunks : List Instr} {first pixels : List Color} {d d' : Dec} {s t : State}

/-- With pixels to come DEC is in BODY. -/
theorem Dec.Awaits.body (h : d.Awaits chunks pixels) (hpos : 0 < pixels.length) :
    d.phase = .body ∧ d.count < d.target := by
  have := h.count
  exact ⟨h.phase.trans (if_neg (by omega)), by omega⟩

/-- DEC's step executes the first chunk that waits. -/
theorem Dec.Awaits.decStep_eq (h : s.dec.Awaits (i :: chunks) pixels) (hpos : 0 < pixels.length)
    (hregion : i.region = .chunks) (hwf : i.WellFormed) : decStep s = some (exec i s) := by
  obtain ⟨more, hstream⟩ := h.stream
  have hdecode := decodeOfEncode i (encodeList chunks) hwf
  rw [hregion] at hdecode
  exact decStep_chunk (h.body hpos).1 hstream hdecode

/-- The end of the first chunk leaves the others waiting and the result of the whole as it was. -/
theorem Dec.Awaits.chunkEnd (h : d.Awaits (i :: chunks) (first ++ pixels)) (hend : d.ChunkEnd i.length d')
    (hframe : d.ChunkFrame d') (hpix : d'.pixOut = d.pixOut ++ first) (hcount : d'.count = d.count + first.length) :
    d'.Awaits chunks pixels
      ∧ d'.resultAfter pixels (encodeList chunks).length
        = d.resultAfter (first ++ pixels) (encodeList (i :: chunks)).length := by
  obtain ⟨more, hstream⟩ := h.stream
  have htotal := h.count
  rw [List.length_append] at htotal
  refine ⟨⟨hframe.cmd.trans h.cmd, ⟨more, ?_⟩, ?_, ?_⟩, ?_⟩
  · rw [Dec.stream_drop hend.byteIn, hstream, encodeList_cons, List.map_append, List.append_assoc,
      List.drop_left' (by rw [List.length_map, encode_length])]
  · rw [hcount, hframe.target, ← htotal, Nat.add_assoc]
  · rw [hend.phase, hframe.target]
  · rw [Dec.resultAfter, Dec.resultAfter, hframe.width, hframe.height, hframe.channels, hframe.colorspace, hpix, hend.ipos,
      List.append_assoc, encodeList_cons, List.length_append, encode_length, Nat.add_assoc]

/-- DEC in lockstep with chunks that give pixels emits those pixels and stops behind the chunks (R189). -/
theorem runAgent_dec_yields {prev : Color} {m : Cache} {n : Nat} (hy : Yields prev m chunks pixels)
    (h : s.dec.Awaits chunks pixels) (hprev : s.dec.prev = prev) (hcache : s.dec.cache = m) (hn : chunks.length ≤ n) :
    (runAgent .dec n s).dec.result = some (s.dec.resultAfter pixels (encodeList chunks).length) := by
  induction hy generalizing s n with
  | nil =>
    rw [runAgent_dec_done (h.phase.trans (if_pos h.count)) h.cmd, Dec.resultAfter, List.append_nil]
    rfl
  | @run prev m chunks pixels k hwf _ ih =>
    obtain ⟨n, rfl⟩ := Nat.exists_eq_add_of_le' (Nat.one_le_of_lt hn)
    have hpos : 0 < (List.replicate k prev ++ pixels).length := by
      rw [List.length_append, List.length_replicate]
      exact Nat.add_pos_left hwf.1 _
    have hfit : s.dec.count + k ≤ s.dec.target := by
      rw [← h.count, List.length_append, List.length_replicate]
      omega
    obtain ⟨t, ht, -, hpix, hprev', hcache', hcount, hend, hframe⟩ :=
      runRepeatsPrevious s k hwf (h.body hpos).1 hfit
    rw [hprev] at hpix
    obtain ⟨hawaits, hresult⟩ := h.chunkEnd hend hframe hpix (by rw [hcount, List.length_replicate])
    rw [runAgent_next (a := .dec) ((h.decStep_eq hpos rfl hwf).trans (congrArg some ht)), ← hresult]
    exact ih hawaits (hprev'.trans hprev) (hcache'.trans hcache) (Nat.le_of_succ_le_succ hn)
  | @change prev m chunks pixels c _ ih =>
    obtain ⟨n, rfl⟩ := Nat.exists_eq_add_of_le' (Nat.one_le_of_lt hn)
    obtain ⟨hregion, hwf⟩ := chooseChunk_wellFormed m prev c
    obtain ⟨hbody, hlt⟩ := h.body (Nat.succ_pos _)
    obtain ⟨t, ht, -, hpixel⟩ := exec_chooseChunk hbody hlt c
    rw [hcache, hprev] at ht hpixel
    obtain ⟨hawaits, hresult⟩ := h.chunkEnd (first := [c]) hpixel.ending hpixel.frame hpixel.pixOut hpixel.count
    have hcache' : t.dec.cache = cacheAfterChange m c :=
      Cache.ext_lookup fun k => by rw [hpixel.cache, hcache, lookup_cacheAfterChange]
    rw [runAgent_next (a := .dec) ((h.decStep_eq (Nat.succ_pos _) hregion hwf).trans (congrArg some ht))]
    exact (ih hawaits hpixel.prev hcache' (Nat.le_of_succ_le_succ hn)).trans (congrArg some hresult)

end

/-- Behind an accepted header DEC awaits the chunks that follow it (42_chunk_decoder R141, R154). -/
theorem Dec.latchHeader_awaits {w h : Word32} {ch cs : Byte} {chunks : List Instr} {pixels : List Color}
    {tail : List Byte} {more : List InToken} {d : Dec} (hcmd : d.cmd = 0) (hcount : d.count = 0)
    (hlen : pixels.length = pixelCount w h)
    (hstream : d.stream = (encodeHeader w h ch cs ++ (encodeList chunks ++ tail)).map .byte ++ more) :
    (d.latchHeader w h ch cs).Awaits chunks pixels where
  cmd := hcmd
  stream := by
    refine ⟨tail.map .byte ++ more, ?_⟩
    rw [Dec.stream_drop (d' := d.latchHeader w h ch cs) rfl, hstream, List.map_append, List.append_assoc,
      List.drop_left' (by rfl), List.map_append, List.append_assoc]
  count := (congrArg (· + pixels.length) hcount).trans ((Nat.zero_add _).trans hlen)
  phase := by
    have hiff : pixelCount w h = 0 ↔ d.count = pixelCount w h := by rw [hcount, eq_comm]
    exact if_congr hiff rfl rfl

/-- DEC's header step with an accepted header first on its port (42_chunk_decoder R141). -/
theorem decStep_acceptedHeader {s : State} {w h : Word32} {ch cs : Byte} {rest : List Byte} {more : List InToken}
    (hp : s.dec.phase = .header) (hch : LegalChannels ch) (hm : pixelCount w h ≤ s.cfg.maxPixels)
    (hstream : s.dec.stream = (encodeHeader w h ch cs ++ rest).map .byte ++ more) :
    decStep s = some (.next { s with dec := s.dec.latchHeader w h ch cs }) := by
  rw [decStep_header hp hstream (decodeOfEncode (.header w h ch cs) rest hch), exec_header hp,
    Dec.acceptHeader_accepted _ hch hm]

/-- The decode of an accepted header, of chunks that give as many pixels as it says, and of anything behind them (R189). -/
theorem decodeStream_image {cfg : Config} {w h : Word32} {ch : Byte} {chunks : List Instr} {pixels : List Color}
    (hch : LegalChannels ch) (hm : pixelCount w h ≤ cfg.maxPixels) (hlen : pixels.length = pixelCount w h)
    (hy : Yields initPrev Cache.clear chunks pixels) (cs : Byte) (tail : List Byte) :
    decodeStream cfg (encodeHeader w h ch cs ++ (encodeList chunks ++ tail))
      = some (.ok w h ch cs pixels (headerBytes + (encodeList chunks).length)) := by
  set bytes := encodeHeader w h ch cs ++ (encodeList chunks ++ tail) with hbytes
  let s := State.launchDecode cfg bytes
  have hstart : decStep s = some (.next { s with dec := s.dec.start }) :=
    decStep_start rfl Nat.one_pos (leftoverFirst_zero _)
  have hstream : s.dec.start.stream = bytes.map .byte ++ [.eos] := launchDecode_stream cfg bytes
  have hheader := decStep_acceptedHeader (s := { s with dec := s.dec.start }) rfl hch hm hstream
  have hawaits : (s.dec.start.latchHeader w h ch cs).Awaits chunks pixels :=
    Dec.latchHeader_awaits rfl rfl hlen hstream
  have hfuel : chunks.length ≤ bytes.length := by
    have := length_le_encodeList chunks
    rw [hbytes, List.length_append, List.length_append]
    omega
  calc decodeStream cfg bytes
    _ = (runAgent .dec (bytes.length + 1) { s with dec := s.dec.start }).dec.result := by
      rw [decodeStream, runAgent_next (a := .dec) hstart]
    _ = (runAgent .dec bytes.length { s with dec := s.dec.start.latchHeader w h ch cs }).dec.result := by
      rw [runAgent_next (a := .dec) hheader]
    _ = some (.ok w h ch cs pixels (headerBytes + (encodeList chunks).length)) :=
      runAgent_dec_yields hy hawaits rfl rfl hfuel

/-- Settles O59: the chunks ENC writes for the image give the image, so DEC, in lockstep, emits it. -/
theorem decodeOfEncodedImage : Obligations.DecodeOfEncodedImage := by
  unfold Obligations.DecodeOfEncodedImage
  intro cfg w h ch cs pixels bytes hlen hencode
  by_cases hbad : ¬ LegalChannels ch ∨ cfg.maxPixels < pixelCount w h
  · cases (encodeImage_rejected hbad cs pixels).symm.trans hencode
  · obtain ⟨hch, hm⟩ := not_or.1 hbad
    replace hch := not_not.1 hch
    replace hm := Nat.not_lt.1 hm
    have hyields : Yields initPrev Cache.clear (imageChunks 0 initPrev Cache.clear (pixels.map (forceAlpha ch)))
        (pixels.map (forceAlpha ch)) := imageChunks_yields (run := 0) (Nat.zero_le _) _ _ _
    cases (encodeImage_accepted hch hm cs hlen).symm.trans hencode
    rw [decodeStream_image hch hm (by rw [List.length_map]; exact hlen) hyields cs endMarkerList]
    have hheader : (encodeHeader w h ch cs).length = headerBytes := rfl
    have hmarker : endMarkerList.length = 8 := rfl
    rw [List.length_append, List.length_append, hheader, hmarker, ← Nat.add_assoc, Nat.add_sub_cancel]

end Sys2Proof.Machine
end

section
/-! PROOFS of the family of 44_header_codec: the header round trip (O7), and the order of the header's checks (O8). -/

namespace Sys2Proof.Machine

/-- What a header written by R201 decodes to: its magic is right, so only the channel count is left to judge (R202). -/
theorem decodeHeader_encodeHeader (w h : Word32) (ch cs : Byte) :
    decodeHeader (encodeHeader w h ch cs)
      = if LegalChannels ch then .ok (w, h, ch, cs) else .error .badChannels := by
  have hrecord := decodeHeaderRecord_encodeHeader w h ch cs []
  rw [List.append_nil] at hrecord
  simp only [decodeHeader, hrecord]

/-- The layout of R200: fourteen bytes with the magic in front are the header of their own fields. -/
theorem exists_eq_encodeHeader {bytes : List Byte} (hl : bytes.length = headerBytes) (hm : bytes.take 4 = magic) :
    ∃ w h ch cs, bytes = encodeHeader w h ch cs := by
  match bytes, hl with
  | [m0, m1, m2, m3, w0, w1, w2, w3, h0, h1, h2, h3, ch, cs], _ =>
    refine ⟨u32 w0 w1 w2 w3, u32 h0 h1 h2 h3, ch, cs, ?_⟩
    rw [encodeHeader, be32_u32, be32_u32, ← hm]
    rfl

/-- Settles O7: the channel count is one of the two that pass the check. -/
theorem headerRoundTrip : Obligations.HeaderRoundTrip := by
  unfold Obligations.HeaderRoundTrip
  intro w h ch cs hch
  rw [decodeHeader_encodeHeader, if_pos hch]

/-- Settles O8: without the magic the record is refused; with it the bytes are an encoded header, so that byte 12 is its
channel count and the fields can be read off. -/
theorem headerChecksInOrder : Obligations.HeaderChecksInOrder := by
  unfold Obligations.HeaderChecksInOrder
  intro bytes hl
  refine ⟨fun hm => ?_, fun hm h3 h4 => ?_, fun hm hch => ?_⟩
  · have hrecord : decodeHeaderRecord bytes = .error .badMagic := decodeHeaderRecord_badMagic hl.ge hm
    simp only [decodeHeader, hrecord]
  · obtain ⟨w, h, ch, cs, rfl⟩ := exists_eq_encodeHeader hl hm
    have hbad : ¬ LegalChannels ch := not_or.2 ⟨fun e => h3 (congrArg some e), fun e => h4 (congrArg some e)⟩
    rw [decodeHeader_encodeHeader, if_neg hbad]
  · obtain ⟨w, h, ch, cs, rfl⟩ := exists_eq_encodeHeader hl hm
    have hlegal : LegalChannels ch := hch.imp Option.some.inj Option.some.inj
    exact ⟨w, h, ch, cs, headerRoundTrip w h ch cs hlegal, rfl, rfl, rfl, rfl⟩

end Sys2Proof.Machine
end
